-- ==== Sys2Proof/Word.lean ====
section
/-! DEFINITION. The widths of 00_scope R6 as types: data values, bytes, instruction indices, instruction words, and the
31-element type of register identifiers. -/

namespace Sys2Proof

/-- A data value: "unsigned 64-bit" (R6 `XLEN`, `IMMW`; R8). -/
abbrev Word := BitVec 64

/-- One byte of a serialised program image (R44). -/
abbrev Byte := BitVec 8

/-- An instruction index: `pc`, a branch target, `LEN`, `fault.index` (R6 `PCW`; the spec's decision D7, log entry 11). -/
abbrev Index := BitVec 64

/-- One instruction word (R62 `IWORD`; the spec's decision D5, log entry 10). -/
abbrev InstrWord := BitVec 128

/-- A register identifier, 0 to 30: "a closed enumeration, not an arbitrary integer" (R20 to R22, R60). -/
abbrev Reg := Fin 31

end Sys2Proof
end

