-- ==== Sys2Proof/Syntax.lean ====
section
/-! DEFINITION. The abstract instruction (30_encoding R60, R61): nine operations, a closed set, the normative level (R7).
Register fields have the 31-element type, so that every value is a legal instruction (R60, R70). -/

namespace Sys2Proof

/-- The algebraic type of R60, one constructor per row of the opcode table. -/
inductive Instr where
  /-- `mov xD, #K` (R80) -/
  | movi (rd : Reg) (imm : Word)
  /-- `mov xD, xN` (R81) -/
  | movr (rd rn : Reg)
  /-- `cmp xA, xB`: `rn` is register A, `rm` register B (R90) -/
  | cmp (rn rm : Reg)
  /-- `add xD, xN, xM` (R100) -/
  | add (rd rn rm : Reg)
  /-- `sub xD, xN, xM` (R101) -/
  | sub (rd rn rm : Reg)
  /-- `mul xD, xN, xM` (R102) -/
  | mul (rd rn rm : Reg)
  /-- `div xD, xN, xM` (R103, R104) -/
  | div (rd rn rm : Reg)
  /-- `b.eq #T` (R120) -/
  | beq (target : Index)
  /-- `b.lt #T` (R121) -/
  | blt (target : Index)
deriving DecidableEq, Repr

end Sys2Proof
end

