-- ==== Sys2Proof/WellFormed.lean ====
section
/-! DEFINITION. Well-formedness of an instruction word, read from the FORMAT TABLE of 30_encoding (R62 to R65, R71): the
nine operation codes, which fields each format uses, and a check that names the class of ill-formed word. The decoder
(Decode.lean) is written from the pseudocode of R69 instead; that the two agree is an obligation. At the abstract level
every `Instr` value is well-formed (R70), because its register fields have the 31-element type. -/

namespace Sys2Proof

/-- The nine operations (R60, R63), in the order of their codes. -/
inductive Op where
  | movi | movr | cmp | add | sub | mul | div | beq | blt
deriving DecidableEq, Repr

/-- The operation of an instruction. -/
def Instr.op : Instr → Op
  | .movi _ _ => .movi
  | .movr _ _ => .movr
  | .cmp _ _ => .cmp
  | .add _ _ _ => .add
  | .sub _ _ _ => .sub
  | .mul _ _ _ => .mul
  | .div _ _ _ => .div
  | .beq _ => .beq
  | .blt _ => .blt

/-- The operation codes of R63. -/
def Op.code : Op → Byte
  | .movi => 0x01
  | .movr => 0x02
  | .cmp => 0x03
  | .add => 0x04
  | .sub => 0x05
  | .mul => 0x06
  | .div => 0x07
  | .beq => 0x08
  | .blt => 0x09

/-- The operation a code selects (R63): "The value 0 and the values 10 to 255 select no instruction." -/
def Op.ofCode (b : Byte) : Option Op :=
  [Op.movi, .movr, .cmp, .add, .sub, .mul, .div, .beq, .blt].find? fun o => o.code == b

/-- The five formats of R64. -/
inductive WordFormat where
  | i | r2 | c | r3 | b
deriving DecidableEq, Repr

/-- The format of an operation (R63). -/
def Op.format : Op → WordFormat
  | .movi => .i
  | .movr => .r2
  | .cmp => .c
  | .add | .sub | .mul | .div => .r3
  | .beq | .blt => .b

/-- Whether a format uses the `rd` field (R64). -/
def WordFormat.usesRd : WordFormat → Bool
  | .i | .r2 | .r3 => true
  | .c | .b => false

/-- Whether a format uses the `rn` field (R64). -/
def WordFormat.usesRn : WordFormat → Bool
  | .r2 | .c | .r3 => true
  | .i | .b => false

/-- Whether a format uses the `rm` field (R64). -/
def WordFormat.usesRm : WordFormat → Bool
  | .c | .r3 => true
  | .i | .r2 | .b => false

/-- Whether a format uses the `imm64` field (R64). -/
def WordFormat.usesImm : WordFormat → Bool
  | .i | .b => true
  | .r2 | .c | .r3 => false

/-- The six fields of an instruction word (R62). -/
structure Fields where
  zero : BitVec 32
  op : Byte
  rm : Byte
  rn : Byte
  rd : Byte
  imm64 : Word
deriving DecidableEq, Repr

/-- Why bits are not an instruction: the classes of R71, and an image too short to hold a word. -/
inductive IllFormed where
  /-- "`zero` field non-zero" -/
  | zeroField
  /-- "`op` equal to `0x00` or in `0x0A` to `0xFF`" -/
  | opcode
  /-- "an unused field non-zero" -/
  | unusedField
  /-- "a used register field holding 31 to 255" -/
  | registerField
  /-- fewer than the 16 bytes of one word (R44) -/
  | truncated
deriving DecidableEq, Repr

/-- A field the format does not use is zero (R64). -/
def WordFormat.unusedZero (g : WordFormat) (f : Fields) : Bool :=
  (g.usesRd || f.rd == 0) && (g.usesRn || f.rn == 0) && (g.usesRm || f.rm == 0) && (g.usesImm || f.imm64 == 0)

/-- A register field the format uses holds 0 to 30 (R65). -/
def WordFormat.registersLegal (g : WordFormat) (f : Fields) : Bool :=
  (!g.usesRd || decide (f.rd.toNat ≤ 30)) && (!g.usesRn || decide (f.rn.toNat ≤ 30)) &&
    (!g.usesRm || decide (f.rm.toNat ≤ 30))

/-- The well-formedness check: `none` for a well-formed word, else the class of R71 it falls in. Where a word falls in
several, the first of zero field, operation code, unused field, register field is named (DESIGN CHOICE, log entry 14). -/
def Fields.check (f : Fields) : Option IllFormed :=
  if f.zero ≠ 0 then some .zeroField
  else
    match Op.ofCode f.op with
    | none => some .opcode
    | some o =>
      if o.format.unusedZero f = false then some .unusedField
      else if o.format.registersLegal f = false then some .registerField
      else none

end Sys2Proof
end

