-- ==== Sys2Proof/Decode.lean ====
section
/-! DEFINITION. The instruction decoder of 30_encoding R69, its encoder, the match and mask table of R65, and the byte
serialisation of 20_memory R44. All bit positions are the spec's decision D5 (log entry 10), the byte order its decision
D12 (log entry 2). -/

namespace Sys2Proof

/-! ### Fields of a word (R62) -/

/-- The fields of a word, at the positions of R62. -/
def fieldsOf (w : InstrWord) : Fields where
  zero := w.extractLsb' 96 32
  op := w.extractLsb' 88 8
  rm := w.extractLsb' 80 8
  rn := w.extractLsb' 72 8
  rd := w.extractLsb' 64 8
  imm64 := w.extractLsb' 0 64

/-- The word made of six fields (R62). -/
def wordOf (f : Fields) : InstrWord :=
  f.zero ++ f.op ++ f.rm ++ f.rn ++ f.rd ++ f.imm64

/-! ### The decoder (R69) -/

/-- A register field as a register identifier; the values 31 to 255 are illegal (R66). -/
def regOfField (b : Byte) : Option Reg :=
  if h : b.toNat < 31 then some ⟨b.toNat, h⟩ else none

/-- Format I: `rm = 0`, `rn = 0`. -/
def decodeI (f : Fields) (mk : Reg → Word → Instr) : Except IllFormed Instr :=
  if f.rm = 0 ∧ f.rn = 0 then
    match regOfField f.rd with
    | some rd => .ok (mk rd f.imm64)
    | none => .error .registerField
  else .error .unusedField

/-- Format R2: `rm = 0`, `imm64 = 0`. -/
def decodeR2 (f : Fields) (mk : Reg → Reg → Instr) : Except IllFormed Instr :=
  if f.rm = 0 ∧ f.imm64 = 0 then
    match regOfField f.rd, regOfField f.rn with
    | some rd, some rn => .ok (mk rd rn)
    | _, _ => .error .registerField
  else .error .unusedField

/-- Format C: `rd = 0`, `imm64 = 0`. -/
def decodeC (f : Fields) (mk : Reg → Reg → Instr) : Except IllFormed Instr :=
  if f.rd = 0 ∧ f.imm64 = 0 then
    match regOfField f.rn, regOfField f.rm with
    | some rn, some rm => .ok (mk rn rm)
    | _, _ => .error .registerField
  else .error .unusedField

/-- Format R3: `imm64 = 0`. -/
def decodeR3 (f : Fields) (mk : Reg → Reg → Reg → Instr) : Except IllFormed Instr :=
  if f.imm64 = 0 then
    match regOfField f.rd, regOfField f.rn, regOfField f.rm with
    | some rd, some rn, some rm => .ok (mk rd rn rm)
    | _, _, _ => .error .registerField
  else .error .unusedField

/-- Format B: `rm = 0`, `rn = 0`, `rd = 0`. -/
def decodeB (f : Fields) (mk : Index → Instr) : Except IllFormed Instr :=
  if f.rm = 0 ∧ f.rn = 0 ∧ f.rd = 0 then .ok (mk f.imm64)
  else .error .unusedField

/-- The pseudocode of R69 over the fields; "Illegal" carries the name of the class of R71. -/
def decodeFields (f : Fields) : Except IllFormed Instr :=
  if f.zero ≠ 0 then .error .zeroField
  else
    match f.op.toNat with
    | 0x01 => decodeI f .movi
    | 0x02 => decodeR2 f .movr
    | 0x03 => decodeC f .cmp
    | 0x04 => decodeR3 f .add
    | 0x05 => decodeR3 f .sub
    | 0x06 => decodeR3 f .mul
    | 0x07 => decodeR3 f .div
    | 0x08 => decodeB f .beq
    | 0x09 => decodeB f .blt
    | _ => .error .opcode

/-- `Decode : Word128 -> Instr or Illegal` (R69). -/
def decode (w : InstrWord) : Except IllFormed Instr := decodeFields (fieldsOf w)

/-! ### The encoder (R64, R69) -/

/-- A register number in its eight-bit field. -/
def fieldOfReg (r : Reg) : Byte := BitVec.ofNat 8 r.val

/-- Each operand in its field, zero everywhere else, with the `op` of R63 (R64, R69). -/
def encodeFields : Instr → Fields
  | .movi rd imm => { zero := 0, op := 0x01, rm := 0, rn := 0, rd := fieldOfReg rd, imm64 := imm }
  | .movr rd rn => { zero := 0, op := 0x02, rm := 0, rn := fieldOfReg rn, rd := fieldOfReg rd, imm64 := 0 }
  | .cmp rn rm => { zero := 0, op := 0x03, rm := fieldOfReg rm, rn := fieldOfReg rn, rd := 0, imm64 := 0 }
  | .add rd rn rm =>
    { zero := 0, op := 0x04, rm := fieldOfReg rm, rn := fieldOfReg rn, rd := fieldOfReg rd, imm64 := 0 }
  | .sub rd rn rm =>
    { zero := 0, op := 0x05, rm := fieldOfReg rm, rn := fieldOfReg rn, rd := fieldOfReg rd, imm64 := 0 }
  | .mul rd rn rm =>
    { zero := 0, op := 0x06, rm := fieldOfReg rm, rn := fieldOfReg rn, rd := fieldOfReg rd, imm64 := 0 }
  | .div rd rn rm =>
    { zero := 0, op := 0x07, rm := fieldOfReg rm, rn := fieldOfReg rn, rd := fieldOfReg rd, imm64 := 0 }
  | .beq t => { zero := 0, op := 0x08, rm := 0, rn := 0, rd := 0, imm64 := t }
  | .blt t => { zero := 0, op := 0x09, rm := 0, rn := 0, rd := 0, imm64 := t }

/-- `Encode : Instr -> Word128` (R69). -/
def encode (i : Instr) : InstrWord := wordOf (encodeFields i)

/-! ### The match and mask table (R65, opcode_table.json) -/

/-- The mask column of R65. -/
def Op.mask : Op → InstrWord
  | .movi => 0xFFFFFFFFFFFFFF000000000000000000
  | .movr => 0xFFFFFFFFFFFF0000FFFFFFFFFFFFFFFF
  | .cmp => 0xFFFFFFFFFF0000FFFFFFFFFFFFFFFFFF
  | .add => 0xFFFFFFFFFF000000FFFFFFFFFFFFFFFF
  | .sub => 0xFFFFFFFFFF000000FFFFFFFFFFFFFFFF
  | .mul => 0xFFFFFFFFFF000000FFFFFFFFFFFFFFFF
  | .div => 0xFFFFFFFFFF000000FFFFFFFFFFFFFFFF
  | .beq => 0xFFFFFFFFFFFFFFFF0000000000000000
  | .blt => 0xFFFFFFFFFFFFFFFF0000000000000000

/-- The match column of R65. -/
def Op.pattern : Op → InstrWord
  | .movi => 0x00000000010000000000000000000000
  | .movr => 0x00000000020000000000000000000000
  | .cmp => 0x00000000030000000000000000000000
  | .add => 0x00000000040000000000000000000000
  | .sub => 0x00000000050000000000000000000000
  | .mul => 0x00000000060000000000000000000000
  | .div => 0x00000000070000000000000000000000
  | .beq => 0x00000000080000000000000000000000
  | .blt => 0x00000000090000000000000000000000

/-- A word is an encoding of an operation by R65: match, mask, and the register fields its row names at most 30. -/
def Op.matches (o : Op) (w : InstrWord) : Bool :=
  (w &&& o.mask == o.pattern) && o.format.registersLegal (fieldsOf w)

/-! ### Bytes (R44): sixteen bytes a word, least significant byte first -/

/-- The number a byte string stands for, least significant byte first. -/
def leNat : List Byte → Nat
  | [] => 0
  | b :: bs => b.toNat + 256 * leNat bs

/-- The `n` low bytes of a number, least significant first. -/
def leBytes : Nat → Nat → List Byte
  | 0, _ => []
  | n + 1, v => BitVec.ofNat 8 v :: leBytes n (v / 256)

/-- The bytes of one instruction word (R44). -/
def wordBytes (w : InstrWord) : List Byte := leBytes 16 w.toNat

/-- The bytes of one instruction in a serialised image. -/
def encodeBytes (i : Instr) : List Byte := wordBytes (encode i)

/-- The decoder on any bytes: one instruction and the rest of the image, or a refusal by name. -/
def decodeBytes (bs : List Byte) : Except IllFormed (Instr × List Byte) :=
  if bs.length < 16 then .error .truncated
  else
    match decode (BitVec.ofNat 128 (leNat (bs.take 16))) with
    | .ok i => .ok (i, bs.drop 16)
    | .error r => .error r

/-- What the decoder reads from an instruction whose low `nbits` bits are `w` and whose other bits are 0, laid out as the
bytes of R44. -/
def decodeTableWord (nbits w : Nat) : Option Instr :=
  match decodeBytes (leBytes 16 (w % 2 ^ nbits)) with
  | .ok (i, _) => some i
  | .error _ => none

end Sys2Proof
end

