-- ==== Sys2Proof/Config.lean ====
section
/-! DEFINITION. The parameters of CORE that are fixed for the hardware (00_scope R6). CORE has no unspecified value (R139),
so there is no free value here. -/

namespace Sys2Proof

/-- The one two-valued condition flag (R25). `equal` means "not less than". -/
inductive Flag where
  | equal
  | lessThan
deriving DecidableEq, Repr

/-- `MOVR_POLICY` (R6, R81): what register-to-register Move writes. -/
inductive MovrPolicy where
  /-- The value read from the source goes back into the source; the destination is untouched. -/
  | sourceWriteback
  /-- The value read from the source goes into the destination. -/
  | destinationWrite
deriving DecidableEq, Repr

/-- `OVERFLOW_POLICY` (R6, R106): the result of ADD, SUB and MUL outside 0 to 2^64 - 1. -/
inductive OverflowPolicy where
  /-- The true result modulo 2^64. -/
  | wrap
  /-- The true result clamped to 0 below and to 2^64 - 1 above. -/
  | saturate
deriving DecidableEq, Repr

/-- The value this hardware takes (the spec's decision D2, UNVERIFIED against the reference; log entry 6). -/
def Config.movrPolicy : MovrPolicy := .sourceWriteback

/-- The value this hardware takes (the spec's decision D3, UNVERIFIED against the reference; log entry 7). -/
def Config.overflowPolicy : OverflowPolicy := .wrap

/-- `FLAG_RESET` (R6, R26; the spec's decision D8, log entry 9). -/
def Config.flagReset : Flag := .equal

end Sys2Proof
end

