-- ==== Sys2Proof/Machine/State.lean ====
section
/-! DEFINITION. The architectural state of CORE (10_state: register file, condition flag, program counter, run status,
fault record), the program of a run (00_scope R6 `prog`, `LEN`), the reasons a step can stop, and the reset state. -/

namespace Sys2Proof.Machine

/-- The three driver states (R30, R130). -/
inductive Status where
  | running
  | halted
  | faulted
deriving DecidableEq, Repr

/-- The kinds of the fault record (R31, R151); `none` while the status is not `faulted`. -/
inductive FaultKind where
  | none
  | divisionByZero
  | invalidProgramCounter
deriving DecidableEq, Repr

/-- The fault record `(kind, index)` (R31). -/
structure FaultRecord where
  kind : FaultKind
  index : Index
deriving DecidableEq, Repr

/-- The record while no fault has been raised: `(None, 0)` (R31, R35; the spec's decision D10, log entry 12). -/
def FaultRecord.clear : FaultRecord := ⟨.none, 0⟩

/-- The program store as bytes: byte `16 * i + k` holds bits `[8k+7 : 8k]` of `prog[i]` (R40, R44; log entries 1, 2). In
canonical form: addresses strictly rising, and no entry that holds what an unlisted address reads as. -/
abbrev Memory := List Host.Cell

/-- The state of CORE. The first five fields are "the whole state" of 10_state; `prog` and `progLen` are the parameters of
the run, which no step changes (R10, R50; log entry 1). -/
structure State where
  /-- `x[0]` to `x[30]` (R20) -/
  regs : Vector Word 31
  /-- the condition flag (R25) -/
  flag : Flag
  /-- the program counter, an instruction index (R27) -/
  pc : Index
  /-- the run status (R30) -/
  status : Status
  /-- the fault record (R31) -/
  fault : FaultRecord
  /-- the program store (R40) -/
  prog : Memory
  /-- `LEN`, the program's length and the halt position (R6, R47) -/
  progLen : Index
deriving DecidableEq, Repr

/-- Why the machine has no next state although nothing is refused: the two terminal states of R138. The run-time faults of
60_exceptions are NOT here: taking one is a next state (status `faulted`, record written). -/
inductive Fault where
  /-- Raised by `step` in a state whose status is `halted`: "no step is defined from them" (R138). Safe: no claim about a
  next state can be made there. -/
  | stuckHalted
  /-- Raised by `step` in a state whose status is `faulted` (R138, R161). Safe, as above. -/
  | stuckFaulted
deriving DecidableEq, Repr

/-- Why the model gives no behaviour. -/
inductive Refusal where
  /-- Raised by an arm of `exec` whose instruction has no meaning yet. Safe. No arm does. -/
  | notModelled (mnemonic : String)
  /-- Raised by `step` when the word fetched is ill-formed: the spec gives the engine no behaviour on it and refuses the
  program (R71, the spec's decision D6). Safe: nothing can be claimed of such a step. -/
  | illFormedWord (reason : IllFormed)
deriving DecidableEq, Repr

/-- The state right after reset (R35, R180): registers 0, flag `Equal`, pc 0, status `Running`, fault `(None, 0)`. Reset
does not touch the program; the empty program stands here (DESIGN CHOICE, log entry 4). -/
def State.reset : State where
  regs := Vector.replicate 31 0
  flag := Config.flagReset
  pc := 0
  status := .running
  fault := FaultRecord.clear
  prog := []
  progLen := 0

end Sys2Proof.Machine
end

