-- ==== Sys2Proof/Machine/Ops.lean ====
section
/-! DEFINITION. The named operations over the state: the pseudocode primitives of 00_scope R11 (register read and write,
flag write, pc write, fall-through increment, raise, halt, Fetch), the program store as bytes (20_memory), and the driver's
tests before an instruction executes (44_sequencer R131 to R133). -/

namespace Sys2Proof.Machine

/-! ### Registers, flag, program counter (R11, R21, R22) -/

/-- `x[r]`: "always succeeds" (R22). -/
def State.reg (s : State) (r : Reg) : Word := s.regs.get r

/-- `x[r] <- v`: "always succeeds and overwrites unconditionally" (R22). -/
def State.setReg (s : State) (r : Reg) (v : Word) : State := { s with regs := s.regs.set r.val v r.isLt }

/-- `flag <- f` (R11). -/
def State.setFlag (s : State) (f : Flag) : State := { s with flag := f }

/-- `pc <- t` (R11). -/
def State.setPc (s : State) (t : Index) : State := { s with pc := t }

/-- `pc <- pc + 1`, the generic fall-through increment (R11). It wraps only at `pc = 2^64 - 1`, which a step never reaches
here (R136, log entry 21). -/
def State.nextPc (s : State) : State := { s with pc := s.pc + 1 }

/-! ### Ends of a step (R11) -/

/-- `raise kind(index)`: `status <- Faulted`, `fault <- (kind, index)`; "no other state is written by the step" (R11,
R152, R153, R157). CORE's whole fault entry: there is no handler (R159) and no return (R161). -/
def State.raise (s : State) (kind : FaultKind) (index : Index) : State :=
  { s with status := .faulted, fault := ⟨kind, index⟩ }

/-- `halt`: `status <- Halted`; nothing else changes (R11, R131). -/
def State.halt (s : State) : State := { s with status := .halted }

/-! ### The program store (R40, R41, R44) -/

/-- What an unlisted address reads as: an unwritten store is zero (R71 "The all-zero word is ill-formed ... so an unwritten
store cannot be mistaken for code"; DESIGN CHOICE, unsafe, log entry 3). -/
def Memory.unlisted : Byte := 0

/-- One byte of the store. -/
def Memory.read (m : Memory) (a : Nat) : Byte :=
  match m with
  | [] => Memory.unlisted
  | (b, v) :: m' => if b = a then v else Memory.read m' a

/-- Put one byte into the store, keeping the canonical form. Only the Loader's side writes (R43). -/
def Memory.write (m : Memory) (a : Nat) (v : Byte) : Memory :=
  match m with
  | [] => if v = Memory.unlisted then [] else [(a, v)]
  | (b, w) :: m' =>
    if a < b then (if v = Memory.unlisted then (b, w) :: m' else (a, v) :: (b, w) :: m')
    else if a = b then (if v = Memory.unlisted then m' else (a, v) :: m')
    else (b, w) :: Memory.write m' a v

/-- The canonical form: addresses strictly rising, no entry that holds the unlisted value. -/
abbrev Memory.wf (m : Memory) : Prop :=
  m.Pairwise (fun c d => c.1 < d.1) ∧ ∀ c ∈ m, c.2 ≠ Memory.unlisted

/-- `n` bytes from address `a` up. -/
def Memory.readBytes (m : Memory) : Nat → Nat → List Byte
  | _, 0 => []
  | a, n + 1 => m.read a :: m.readBytes (a + 1) n

/-- A byte string put at address `a` and up. -/
def Memory.writeBytes (m : Memory) (a : Nat) : List Byte → Memory
  | [] => m
  | b :: bs => (m.write a b).writeBytes (a + 1) bs

/-- The byte address of instruction index `i` (R44). -/
def byteAddr (i : Nat) : Nat := 16 * i

/-- The 16 bytes at instruction index `i`, as one word (R44). -/
def Memory.readWord (m : Memory) (i : Nat) : InstrWord := BitVec.ofNat 128 (leNat (m.readBytes (byteAddr i) 16))

/-- One word put at instruction index `i` (R44). -/
def Memory.writeWord (m : Memory) (i : Nat) (w : InstrWord) : Memory := m.writeBytes (byteAddr i) (wordBytes w)

/-! ### Fetch and the driver's tests (R131 to R133) -/

/-- `Fetch(i)` at the binary level: the word the instruction multiplexer selects (R41, R133). -/
def State.fetchWord (s : State) (i : Index) : InstrWord := s.prog.readWord i.toNat

/-- The instruction at index `i`, as the decoder reads it (R69, R133). -/
def State.instrAt (s : State) (i : Index) : Except IllFormed Instr := decode (s.fetchWord i)

/-- What one pass of the driver loop comes to before an instruction executes. -/
inductive Pass where
  /-- no step exists (R138) -/
  | stuck (r : Fault)
  /-- the step ends without a fetch: halt or invalid program counter (R131, R132) -/
  | ends (t : State)
  /-- the word fetched is ill-formed (R71) -/
  | refuse (r : Refusal)
  /-- this instruction executes (R133) -/
  | run (i : Instr)
deriving DecidableEq, Repr

/-- The tests of a running driver, in the order of R137: halt, invalid program counter, fetch and decode. -/
def State.runningPass (s : State) : Pass :=
  if s.pc = s.progLen then .ends s.halt
  else if s.progLen < s.pc then .ends (s.raise .invalidProgramCounter s.pc)
  else
    match s.instrAt s.pc with
    | .ok i => .run i
    | .error r => .refuse (.illFormedWord r)

/-- One pass of the driver loop up to the instruction's own effect: "A step is taken only when `status = Running`" (R134,
R138). -/
def State.pass (s : State) : Pass :=
  match s.status with
  | .halted => .stuck .stuckHalted
  | .faulted => .stuck .stuckFaulted
  | .running => s.runningPass

/-! ### Placing one word where the next step fetches -/

/-- The index the next fetch is made at; `2^64 - 1` can hold no instruction, since `LEN <= 2^64 - 1` (R6), so there index 0
is taken (DESIGN CHOICE, log entry 4). -/
def State.fetchSlot (s : State) : Index := if s.pc = BitVec.allOnes 64 then 0 else s.pc

/-- The state with a word placed where the next step fetches: the store's bytes, a length that includes the slot, the
status `running` (and, if it was not, the record cleared as R31 has it). Everything else is as it was (log entry 4). -/
def State.placeAtFetch (s : State) (w : InstrWord) : State :=
  { s with
    pc := s.fetchSlot
    prog := s.prog.writeWord s.fetchSlot.toNat w
    progLen := if s.fetchSlot < s.progLen then s.progLen else s.fetchSlot + 1
    status := .running
    fault := if s.status = .running then s.fault else FaultRecord.clear }

end Sys2Proof.Machine
end

