-- ==== Sys2Proof/Machine/Operands.lean ====
section
/-! DEFINITION. Operand forms and the 64-bit ALU. The operand forms are a register number, an immediate taken whole (R67)
and an absolute target taken whole (R68); the ALU results are the integer arithmetic laws of 42_arithmetic R105 to R108. -/

namespace Sys2Proof.Machine

/-- An immediate operand as it is used: "no sign extension, no zero extension ..., no shift, no scaling" (R67). -/
def immOperand (imm : Word) : Word := imm

/-- A branch target as it is used: absolute, "not added to `pc`, not scaled ..., not sign-extended" (R68). -/
def targetOperand (t : Index) : Index := t

/-- A true integer result brought into 0 to 2^64 - 1 (R106): `wrap64` of R11, or the clamp the spec names as the
alternative (log entry 7). -/
def narrow (p : OverflowPolicy) (v : Int) : Word :=
  match p with
  | .wrap => BitVec.ofInt 64 v
  | .saturate => if v < 0 then 0 else if (2 ^ 64 : Int) ≤ v then BitVec.allOnes 64 else BitVec.ofInt 64 v

/-- The sum (R100, R107). -/
def aluAdd (p : OverflowPolicy) (a b : Word) : Word := narrow p ((a.toNat : Int) + (b.toNat : Int))

/-- The difference, operand 1 minus operand 2 (R101, R107). -/
def aluSub (p : OverflowPolicy) (a b : Word) : Word := narrow p ((a.toNat : Int) - (b.toNat : Int))

/-- The product (R102, R107). -/
def aluMul (p : OverflowPolicy) (a b : Word) : Word := narrow p ((a.toNat : Int) * (b.toNat : Int))

/-- `udiv(a, b)`, the quotient rounded down (R103, R108; the spec's decision D4, log entry 15). "Not defined for `b = 0`"
(R11): DIV raises its fault before it could be read. -/
def aluDiv (a b : Word) : Word := BitVec.ofNat 64 (a.toNat / b.toNat)

end Sys2Proof.Machine
end

