-- ==== Sys2Proof/Machine/Arithmetic.lean ====
section
/-! DEFINITION. The Arithmetic family (42_arithmetic): ADD, SUB, MUL, DIV. -/

namespace Sys2Proof.Machine

/-- ADD (R100). -/
def execAdd (rd rn rm : Reg) (s : State) : Host.Outcome State Fault Refusal :=
  .next ((s.setReg rd (aluAdd Config.overflowPolicy (s.reg rn) (s.reg rm))).nextPc)

/-- SUB (R101): operand 1 minus operand 2. -/
def execSub (rd rn rm : Reg) (s : State) : Host.Outcome State Fault Refusal :=
  .next ((s.setReg rd (aluSub Config.overflowPolicy (s.reg rn) (s.reg rm))).nextPc)

/-- MUL (R102). -/
def execMul (rd rn rm : Reg) (s : State) : Host.Outcome State Fault Refusal :=
  .next ((s.setReg rd (aluMul Config.overflowPolicy (s.reg rn) (s.reg rm))).nextPc)

/-- DIV (R103, R104): a zero divisor takes the DivisionByZero fault, with the index of the DIV, and writes nothing else
(log entry 13). -/
def execDiv (rd rn rm : Reg) (s : State) : Host.Outcome State Fault Refusal :=
  if s.reg rm = 0 then .next (s.raise .divisionByZero s.pc)
  else .next ((s.setReg rd (aluDiv (s.reg rn) (s.reg rm))).nextPc)

end Sys2Proof.Machine
end

