-- ==== Sys2Proof/Machine/Flags.lean ====
section
/-! DEFINITION. The one flag computation (41_compare R90, 42_arithmetic R109) and the branch predicates over the flag
(43_branch R120, R121). -/

namespace Sys2Proof.Machine

/-- The flag after comparing `a` with `b`: the unsigned order on 0 to 2^64 - 1 (R90, R109). It depends on this compare
alone (90_conflicts C1, log entry 8). -/
def compareFlag (a b : Word) : Flag := if a.toNat < b.toNat then .lessThan else .equal

/-- The predicate of B.EQ (R120). -/
def takenIfEqual (f : Flag) : Bool := f == .equal

/-- The predicate of B.LT (R121). -/
def takenIfLessThan (f : Flag) : Bool := f == .lessThan

/-- The branch redirector (R2, R124): a taken branch writes `pc` with its target, unchecked and without the increment; an
untaken one takes the increment and does not look at its target. -/
def State.branch (s : State) (taken : Bool) (t : Index) : State :=
  if taken then s.setPc (targetOperand t) else s.nextPc

end Sys2Proof.Machine
end

