-- ==== Sys2Proof/Machine/Branch.lean ====
section
/-! DEFINITION. The Branch family (43_branch): B.EQ, B.LT. -/

namespace Sys2Proof.Machine

/-- B.EQ (R120). -/
def execBeq (t : Index) (s : State) : Host.Outcome State Fault Refusal :=
  .next (s.branch (takenIfEqual s.flag) t)

/-- B.LT (R121). -/
def execBlt (t : Index) (s : State) : Host.Outcome State Fault Refusal :=
  .next (s.branch (takenIfLessThan s.flag) t)

end Sys2Proof.Machine
end

