-- ==== Sys2Proof/Machine/Compare.lean ====
section
/-! DEFINITION. The Compare family (41_compare): CMP. -/

namespace Sys2Proof.Machine

/-- CMP (R90, R91): the flag is written on every execution, no register is, and `pc` takes the generic increment only
(90_conflicts C1, C2; log entry 8). -/
def execCmp (rn rm : Reg) (s : State) : Host.Outcome State Fault Refusal :=
  .next ((s.setFlag (compareFlag (s.reg rn) (s.reg rm))).nextPc)

end Sys2Proof.Machine
end

