-- ==== Sys2Proof/Machine/Move.lean ====
section
/-! DEFINITION. The Move family (40_move): MOVI, MOVR. -/

namespace Sys2Proof.Machine

/-- MOVI (R80): `x[rd] <- imm; pc <- pc + 1`. -/
def execMovi (rd : Reg) (imm : Word) (s : State) : Host.Outcome State Fault Refusal :=
  .next ((s.setReg rd (immOperand imm)).nextPc)

/-- What MOVR writes, under either value of `MOVR_POLICY` (R81). -/
def State.moveReg (p : MovrPolicy) (rd rn : Reg) (s : State) : State :=
  match p with
  | .sourceWriteback => s.setReg rn (s.reg rn)
  | .destinationWrite => s.setReg rd (s.reg rn)

/-- MOVR under a given policy (R81): the register write, then `pc <- pc + 1`. -/
def execMovrUnder (p : MovrPolicy) (rd rn : Reg) (s : State) : Host.Outcome State Fault Refusal :=
  .next ((s.moveReg p rd rn).nextPc)

/-- MOVR (R81), under the value of `MOVR_POLICY` this hardware takes (the spec's decision D2, log entry 6). -/
def execMovr (rd rn : Reg) (s : State) : Host.Outcome State Fault Refusal :=
  execMovrUnder Config.movrPolicy rd rn s

end Sys2Proof.Machine
end

