-- ==== Sys2Proof/Machine/Dispatch.lean ====
section
/-! DEFINITION. One arm per instruction (44_sequencer R133, R134). -/

namespace Sys2Proof.Machine

/-- The effect of one instruction on a state whose `pc` is that instruction's index (R133). -/
def exec (i : Instr) (s : State) : Host.Outcome State Fault Refusal :=
  match i with
  | .movi rd imm => Sys2Proof.Machine.execMovi rd imm s
  | .movr rd rn => Sys2Proof.Machine.execMovr rd rn s
  | .cmp rn rm => Sys2Proof.Machine.execCmp rn rm s
  | .add rd rn rm => Sys2Proof.Machine.execAdd rd rn rm s
  | .sub rd rn rm => Sys2Proof.Machine.execSub rd rn rm s
  | .mul rd rn rm => Sys2Proof.Machine.execMul rd rn rm s
  | .div rd rn rm => Sys2Proof.Machine.execDiv rd rn rm s
  | .beq t => Sys2Proof.Machine.execBeq t s
  | .blt t => Sys2Proof.Machine.execBlt t s

end Sys2Proof.Machine
end

