-- ==== Sys2Proof/Machine/Step.lean ====
section
/-! DEFINITION. One step: one pass of the driver loop (00_scope R12, 44_sequencer R134). The driver's tests, the fetch and
the decoding are `State.pass`. -/

namespace Sys2Proof.Machine

/-- `Step` (R134). -/
def step (s : State) : Host.Outcome State Fault Refusal :=
  match s.pass with
  | .stuck r => .fault r
  | .ends t => .next t
  | .refuse r => .refused r
  | .run i => exec i s

/-- `s` with the instruction whose low `nbits` bits are `w` (the bits above them 0) placed where the next step fetches
(log entry 4). -/
def State.withFetchWord (s : State) (nbits w : Nat) : State :=
  s.placeAtFetch (BitVec.ofNat 128 (w % 2 ^ nbits))

end Sys2Proof.Machine
end

