-- ==== Sys2Proof/Machine/Loader.lean ====
section
/-! DEFINITION. The contract at the Loader's boundary (00_scope R5, 30_encoding R70, R71, 60_exceptions R154, 70_reset R180
to R183): a complete well-formed program and its length, or a refusal before any execution. -/

namespace Sys2Proof.Machine

/-! ### What the Loader looks at -/

/-- The target of a branch (R60). -/
def branchTarget : Instr → Option Index
  | .beq t | .blt t => some t
  | .movi _ _ | .movr _ _ | .cmp _ _ | .add _ _ _ | .sub _ _ _ | .mul _ _ _ | .div _ _ _ => none

/-- The target of the branch a word holds, if it holds one. -/
def wordTarget (w : InstrWord) : Option Index :=
  match decode w with
  | .ok i => branchTarget i
  | .error _ => none

/-- The first ill-formed word of a program whose first word has index `k`, with its index and class. -/
def firstIllFormed : Nat → List InstrWord → Option (Nat × IllFormed)
  | _, [] => none
  | k, w :: ws =>
    match decode w with
    | .error r => some (k, r)
    | .ok _ => firstIllFormed (k + 1) ws

/-- The first branch whose target is above `len`, in a program whose first word has index `k`, with its index and target. -/
def firstTargetAbove (len : Nat) : Nat → List InstrWord → Option (Nat × Index)
  | _, [] => none
  | k, w :: ws =>
    match wordTarget w with
    | some t => if len < t.toNat then some (k, t) else firstTargetAbove len (k + 1) ws
    | none => firstTargetAbove len (k + 1) ws

/-! ### The Loader's failures -/

/-- A failure of the Loader, "surfaced to the caller before any execution; execution never starts" (R154). -/
inductive LoadError where
  /-- more than 2^64 - 1 instructions (R6 `LEN`; the spec's decision D7, log entry 11) -/
  | tooLong
  /-- the word at this index is ill-formed (R71, the spec's decision D6, log entry 14) -/
  | illFormed (index : Nat) (reason : IllFormed)
  /-- the branch at this index has this target, above `LEN`: "also a LoadError" where the Loader validates targets (R154;
  the spec's open point D16, log entry 17) -/
  | targetAboveLength (index : Nat) (target : Index)
deriving DecidableEq, Repr

/-- Why the Loader refuses a program, if it does. `validatesTargets` is `LOADER_VALIDATES_TARGETS`, an argument of a run
(R6, R154). A program that several failures fit gets ONE named: the length before an ill-formed word, an ill-formed word
before a target, and of a kind the one at the lowest index. The spec names no order (DESIGN CHOICE, safe, log entry 22). -/
def loadError (validatesTargets : Bool) (ws : List InstrWord) : Option LoadError :=
  if 2 ^ 64 ≤ ws.length then some .tooLong
  else
    match firstIllFormed 0 ws with
    | some (k, r) => some (.illFormed k r)
    | none =>
      if validatesTargets then
        match firstTargetAbove ws.length 0 ws with
        | some (k, t) => some (.targetAboveLength k t)
        | none => none
      else none

/-! ### What the Loader delivers -/

/-- The words of a program put into the store from index `k` up (R44). -/
def Memory.writeWords (m : Memory) (k : Nat) : List InstrWord → Memory
  | [] => m
  | w :: ws => (m.writeWord k w).writeWords (k + 1) ws

/-- The reset state with a program in the store (R180, R182). -/
def loadedState (ws : List InstrWord) : State :=
  { State.reset with prog := Memory.writeWords [] 0 ws, progLen := BitVec.ofNat 64 ws.length }

/-- The state a run starts in once the Loader has delivered `ws` and the host has released reset (R180, R182, R183), or the
Loader's failure, after which there is no state to speak of (R154). "A program that contains [an ill-formed word] is
refused before the run" (R71). Which failure is named is `loadError`'s choice (log entry 22). -/
def boot (validatesTargets : Bool) (ws : List InstrWord) : Except LoadError State :=
  match loadError validatesTargets ws with
  | some e => .error e
  | none => .ok (loadedState ws)

/-- Reset, "engine start": a fresh register file and flag; "Reset does not touch `prog` and `LEN`" (R180). The only way out
of a terminal state (R138, R161). -/
def State.restart (s : State) : State :=
  { State.reset with prog := s.prog, progLen := s.progLen }

end Sys2Proof.Machine
end

