-- ==== Sys2Proof/Machine/Assembler.lean ====
section
/-! DEFINITION. The textual grammar of the nine operations (30_encoding R72 to R76). Only the form of the spec's own
listings is accepted (R75, the spec's decision D18; 93 U11: "refuse the rest by name"): lower-case mnemonics, decimal
literals without leading zeros, one space after the mnemonic, a comma and one space between operands (log entry 16). Text
is a list of lines, a line a list of characters: line terminators are not in the source (N3). -/

namespace Sys2Proof.Machine

/-- The Loader's rejections of a line (R75, R154). Which of them a bad line gets is the model's choice (log entry 16). -/
inductive AsmError where
  /-- a missing operand, a missing comma, or an operand that is no literal the grammar admits -/
  | malformedLine
  | unknownMnemonic
  | unknownRegister
  /-- more on the line than the instruction -/
  | trailingGarbage
deriving DecidableEq, Repr

/-! ### Lexical parts -/

/-- The pieces of a line between single spaces. -/
def splitSpaces : List Char → List (List Char)
  | [] => [[]]
  | c :: cs =>
    match splitSpaces cs with
    | [] => [[c]]
    | w :: ws => if c = ' ' then [] :: w :: ws else (c :: w) :: ws

/-- A piece without the comma it must end with. -/
def dropComma : List Char → Option (List Char)
  | [] => none
  | [c] => if c = ',' then some [] else none
  | c :: cs => (dropComma cs).map (c :: ·)

/-- The value of a run of decimal digits that continues `acc`. -/
def readDigits (acc : Nat) : List Char → Option Nat
  | [] => some acc
  | c :: cs => if c.isDigit then readDigits (acc * 10 + (c.toNat - '0'.toNat)) cs else none

/-- A decimal literal without leading zeros (the spec's decision D18). -/
def readNat : List Char → Option Nat
  | [] => none
  | ['0'] => some 0
  | '0' :: _ => none
  | cs => readDigits 0 cs

/-- `#<uint>`: a literal "no greater than `2^64 - 1`" (R73, R75). -/
def readLiteral : List Char → Option (BitVec 64)
  | '#' :: cs =>
    match readNat cs with
    | some n => if n < 2 ^ 64 then some (BitVec.ofNat 64 n) else none
    | none => none
  | _ => none

/-- "Register tokens are exactly `x0`..`x30`" (R73). -/
def readReg : List Char → Option Reg
  | 'x' :: cs =>
    match readNat cs with
    | some n => if h : n < 31 then some ⟨n, h⟩ else none
    | none => none
  | _ => none

/-! ### Operands -/

/-- An operand that a comma follows. -/
def commaPart (p : List Char) : Except AsmError (List Char) :=
  match dropComma p with
  | some q => .ok q
  | none => .error .malformedLine

/-- A register operand; "any other identifier is a parse failure" (R73). -/
def regPart (p : List Char) : Except AsmError Reg :=
  match readReg p with
  | some r => .ok r
  | none => .error .unknownRegister

/-- An immediate or target operand. -/
def literalPart (p : List Char) : Except AsmError (BitVec 64) :=
  match readLiteral p with
  | some k => .ok k
  | none => .error .malformedLine

/-- The rejection of a wrong number of operands. -/
def arityError (n : Nat) (ops : List (List Char)) : AsmError :=
  if n < ops.length then .trailingGarbage else .malformedLine

/-- `mov <reg>, #<uint>` or `mov <reg>, <reg>` (R73). -/
def readMov : List (List Char) → Except AsmError Instr
  | [d, k] => do
    let rd ← regPart (← commaPart d)
    if k.head? = some '#' then return .movi rd (← literalPart k)
    else return .movr rd (← regPart k)
  | ops => .error (arityError 2 ops)

/-- `cmp <reg>, <reg>` (R73). -/
def readCmp : List (List Char) → Except AsmError Instr
  | [a, b] => do
    let rn ← regPart (← commaPart a)
    return .cmp rn (← regPart b)
  | ops => .error (arityError 2 ops)

/-- `add|sub|mul|div <reg_dst>, <reg_src1>, <reg_src2>` (R73). -/
def readArith (mk : Reg → Reg → Reg → Instr) : List (List Char) → Except AsmError Instr
  | [d, n, m] => do
    let rd ← regPart (← commaPart d)
    let rn ← regPart (← commaPart n)
    return mk rd rn (← regPart m)
  | ops => .error (arityError 3 ops)

/-- `b.eq #<uint>` or `b.lt #<uint>` (R73). -/
def readBranch (mk : Index → Instr) : List (List Char) → Except AsmError Instr
  | [t] => do return mk (← literalPart t)
  | ops => .error (arityError 1 ops)

/-- The instruction of a line that is not blank (R73, R74). -/
def parseLine (line : List Char) : Except AsmError Instr :=
  match splitSpaces line with
  | ['m', 'o', 'v'] :: ops => readMov ops
  | ['c', 'm', 'p'] :: ops => readCmp ops
  | ['a', 'd', 'd'] :: ops => readArith .add ops
  | ['s', 'u', 'b'] :: ops => readArith .sub ops
  | ['m', 'u', 'l'] :: ops => readArith .mul ops
  | ['d', 'i', 'v'] :: ops => readArith .div ops
  | ['b', '.', 'e', 'q'] :: ops => readBranch .beq ops
  | ['b', '.', 'l', 't'] :: ops => readBranch .blt ops
  | _ => .error .unknownMnemonic

/-- The instructions of a text whose first line has number `k`: "one instruction per line, blank lines ignored", "a
malformed line fails the whole load" (R72). A blank line is one with no characters (N3, log entry 16). -/
def assembleFrom : Nat → List (List Char) → Except (Nat × AsmError) (List Instr)
  | _, [] => .ok []
  | k, [] :: lines => assembleFrom (k + 1) lines
  | k, line :: lines =>
    match parseLine line with
    | .error e => .error (k, e)
    | .ok i =>
      match assembleFrom (k + 1) lines with
      | .error e => .error e
      | .ok is => .ok (i :: is)

/-- The instruction sequence of a program text, or the number of the offending line and why. -/
def assemble (lines : List (List Char)) : Except (Nat × AsmError) (List Instr) := assembleFrom 0 lines

/-- A failure of the Loader on program text. -/
inductive TextLoadError where
  | line (number : Nat) (reason : AsmError)
  | image (reason : LoadError)
deriving DecidableEq, Repr

/-- The state a run of a program text starts in (R72, R182), under `LOADER_VALIDATES_TARGETS` or without it (R154). A bad
line is named before any failure of the program as a whole (DESIGN CHOICE, safe, log entry 22). -/
def bootText (validatesTargets : Bool) (lines : List (List Char)) : Except TextLoadError State :=
  match assemble lines with
  | .error (k, e) => .error (.line k e)
  | .ok is =>
    match boot validatesTargets (is.map encode) with
    | .error e => .error (.image e)
    | .ok s => .ok s

/-! ### Listings: the text form of an instruction (R74, D18) -/

/-- A number in decimal, without leading zeros. -/
def showNat (n : Nat) : List Char :=
  if n = 0 then ['0'] else ((Nat.digits 10 n).map Nat.digitChar).reverse

/-- `x0` to `x30` (R20). -/
def showReg (r : Reg) : List Char := 'x' :: showNat r.val

/-- A literal with its leading `#` (R73). -/
def showLiteral (k : BitVec 64) : List Char := '#' :: showNat k.toNat

/-- Two register operands. -/
def showRegs2 (a b : Reg) : List Char := showReg a ++ [',', ' '] ++ showReg b

/-- Three register operands. -/
def showRegs3 (a b c : Reg) : List Char := showReg a ++ [',', ' '] ++ showRegs2 b c

/-- The line of an instruction in the spec's listing form (R74). -/
def showInstr : Instr → List Char
  | .movi rd imm => ['m', 'o', 'v', ' '] ++ showReg rd ++ [',', ' '] ++ showLiteral imm
  | .movr rd rn => ['m', 'o', 'v', ' '] ++ showRegs2 rd rn
  | .cmp rn rm => ['c', 'm', 'p', ' '] ++ showRegs2 rn rm
  | .add rd rn rm => ['a', 'd', 'd', ' '] ++ showRegs3 rd rn rm
  | .sub rd rn rm => ['s', 'u', 'b', ' '] ++ showRegs3 rd rn rm
  | .mul rd rn rm => ['m', 'u', 'l', ' '] ++ showRegs3 rd rn rm
  | .div rd rn rm => ['d', 'i', 'v', ' '] ++ showRegs3 rd rn rm
  | .beq t => ['b', '.', 'e', 'q', ' '] ++ showLiteral t
  | .blt t => ['b', '.', 'l', 't', ' '] ++ showLiteral t

end Sys2Proof.Machine
end

