-- ==== Sys2Proof/Machine/Interface.lean ====
section
/-! DEFINITION. What the outside sees of CORE (70_reset R184, R185; 10_state R24, R30, R31; 60_exceptions R151, R155): the
output ports with their codes, and the result of a run. -/

namespace Sys2Proof.Machine

/-- The flag as a one-bit latch (R25; the spec's decision D8, log entry 9). No port carries it (R184). -/
def flagCode : Flag → BitVec 1
  | .equal => 0
  | .lessThan => 1

/-- The status as a pair of wires (R30; the spec's decision D10, log entry 12). -/
def statusCode : Status → BitVec 2
  | .running => 0
  | .halted => 1
  | .faulted => 2

/-- The fault kind as a pair of wires (R31, R151; the spec's decision D10, log entry 12). -/
def faultKindCode : FaultKind → BitVec 2
  | .none => 0
  | .divisionByZero => 1
  | .invalidProgramCounter => 2

/-- The output ports of R184 (the spec's decisions D13, D23, log entry 20). -/
structure Ports where
  /-- `fetch_index`: "the value of `pc`, presented to the program store when `pc < LEN`", whatever the status; what its
  wires carry otherwise is not stated, and nothing is given here (DESIGN CHOICE, safe, log entry 20) -/
  fetchIndex : Option Index
  status : BitVec 2
  faultKind : BitVec 2
  faultIndex : Index
  xOut : Vector Word 31
deriving DecidableEq, Repr

/-- The output ports in a state. -/
def State.ports (s : State) : Ports where
  fetchIndex := if s.pc < s.progLen then some s.pc else none
  status := statusCode s.status
  faultKind := faultKindCode s.fault.kind
  faultIndex := s.fault.index
  xOut := s.regs

/-- The result of a run that has ended (R135): "(final registers | fault)". -/
inductive RunResult where
  /-- the 31 register values, for a run that halted (R24, R143) -/
  | snapshot (x : Vector Word 31)
  /-- the fault report, for a run that faulted (R155, R160) -/
  | report (f : FaultRecord)
deriving DecidableEq, Repr

/-- What the host collects (R24, R135, R185): nothing while the run goes on. -/
def State.result (s : State) : Option RunResult :=
  match s.status with
  | .running => none
  | .halted => some (.snapshot s.regs)
  | .faulted => some (.report s.fault)

end Sys2Proof.Machine
end

