-- ==== Sys2Proof/Machine/Reference.lean ====
section
/-! DEFINITION. The step function of 44_sequencer R134 written at the abstract level (00_scope R7): registers, counter,
target and length are plain natural numbers, the program is a function from indices to instructions, and there are no
words, no bytes and no decoder. The machine of Step.lean is claimed to refine it. It is a reading aid and a target for
claims; no part of the machine calls it. -/

namespace Sys2Proof.Machine

/-- The state of R10 in the spec's own terms. -/
structure RefState where
  x : Reg → Nat
  flag : Flag
  pc : Nat
  status : Status
  faultKind : FaultKind
  faultIndex : Nat

/-- `x[r] <- v`. -/
def RefState.set (a : RefState) (r : Reg) (v : Nat) : RefState :=
  { a with x := fun q => if q = r then v else a.x q }

/-- `pc <- pc + 1`. -/
def RefState.incPc (a : RefState) : RefState := { a with pc := a.pc + 1 }

/-- `pc <- t`. -/
def RefState.jump (a : RefState) (t : Nat) : RefState := { a with pc := t }

/-- `raise kind(i)`. -/
def RefState.raise (a : RefState) (k : FaultKind) (i : Nat) : RefState :=
  { a with status := .faulted, faultKind := k, faultIndex := i }

/-- `wrap64(v)`: `v mod 2^64`, "including a negative difference" (R11). -/
def wrap64 (v : Int) : Nat := (v % 2 ^ 64).toNat

/-- The `case Fetch(pc) of` block of R134. -/
def refExec (i : Instr) (a : RefState) : RefState :=
  match i with
  | .movi rd imm => (a.set rd imm.toNat).incPc
  | .movr rd rn =>
    match Config.movrPolicy with
    | .sourceWriteback => (a.set rn (a.x rn)).incPc
    | .destinationWrite => (a.set rd (a.x rn)).incPc
  | .cmp rn rm => { a with flag := if a.x rn < a.x rm then .lessThan else .equal, pc := a.pc + 1 }
  | .add rd rn rm => (a.set rd (wrap64 (a.x rn + a.x rm))).incPc
  | .sub rd rn rm => (a.set rd (wrap64 (a.x rn - a.x rm))).incPc
  | .mul rd rn rm => (a.set rd (wrap64 (a.x rn * a.x rm))).incPc
  | .div rd rn rm =>
    if a.x rm = 0 then a.raise .divisionByZero a.pc else (a.set rd (a.x rn / a.x rm)).incPc
  | .beq t => if a.flag = .equal then a.jump t.toNat else a.incPc
  | .blt t => if a.flag = .lessThan then a.jump t.toNat else a.incPc

/-- `Step` of R134: `none` where the state has no successor (R138). `prog i` is `none` for an index that holds no
instruction; it is asked only below `len`. -/
def refStep (prog : Nat → Option Instr) (len : Nat) (a : RefState) : Option RefState :=
  match a.status with
  | .halted => none
  | .faulted => none
  | .running =>
    if a.pc = len then some { a with status := .halted }
    else if len < a.pc then some (a.raise .invalidProgramCounter a.pc)
    else (prog a.pc).map fun i => refExec i a

/-- The abstract state a machine state stands for. -/
def State.abs (s : State) : RefState where
  x := fun r => (s.reg r).toNat
  flag := s.flag
  pc := s.pc.toNat
  status := s.status
  faultKind := s.fault.kind
  faultIndex := s.fault.index.toNat

/-- The abstract program a machine state holds: the instructions below `LEN` (R47). -/
def State.absProg (s : State) (i : Nat) : Option Instr :=
  if i < s.progLen.toNat then (decode (s.prog.readWord i)).toOption else none

end Sys2Proof.Machine
end

