-- ==== Sys2Proof/Safety.lean ====
section
/-! DEFINITION. The terms claims are made in: premises on the program of a run, invariants of the state, and what counts as
a safe end. -/

namespace Sys2Proof.Machine

/-- The program is well-formed: every index below `LEN` holds an instruction (R70, R182). "CORE runs only well-formed
programs." -/
def State.ProgramWellFormed (s : State) : Prop :=
  ∀ i : Index, i < s.progLen → ∃ ins, s.instrAt i = .ok ins

/-- Whether a branch's predicate holds (R120, R121); false of an instruction that is no branch. -/
def branchTaken (f : Flag) : Instr → Bool
  | .beq _ => takenIfEqual f
  | .blt _ => takenIfLessThan f
  | .movi _ _ | .movr _ _ | .cmp _ _ | .add _ _ _ | .sub _ _ _ | .mul _ _ _ | .div _ _ _ => false

/-- `LOADER_VALIDATES_TARGETS` (R6, R140; the spec's open decision D16, log entry 17): every branch of the program has a
target at most `LEN`. A premise of a run; the step does not depend on it, and `boot true` establishes it (R154). -/
def State.TargetsValidated (s : State) : Prop :=
  ∀ i : Index, i < s.progLen → ∀ ins t, s.instrAt i = .ok ins → branchTarget ins = some t → t ≤ s.progLen

/-- No instruction of the program is a branch (R142). -/
def State.BranchFree (s : State) : Prop :=
  ∀ i : Index, i < s.progLen → ∀ ins, s.instrAt i = .ok ins → branchTarget ins = none

/-- The document's invariant "0 ≤ program counter ≤ length" (R140). -/
def State.PcInRange (s : State) : Prop := s.pc ≤ s.progLen

/-- The fault record agrees with the status: `(None, 0)` while the status is not `Faulted` (R31); a kind and the pc found
at the fault when it is (R151, R160). -/
def State.FaultRecordOk (s : State) : Prop :=
  if s.status = .faulted then s.fault.kind ≠ .none ∧ s.fault.index = s.pc else s.fault = FaultRecord.clear

/-- A halted machine stands at the halt position (R131, R143). -/
def State.HaltedAtLength (s : State) : Prop := s.status = .halted → s.pc = s.progLen

/-- The invariant every step keeps, from any state: the store's canonical form, the fault record, the halt position. -/
def State.Inv (s : State) : Prop := s.prog.wf ∧ s.FaultRecordOk ∧ s.HaltedAtLength

/-- A run has ended successfully (R143); "a faulted state is never a successful end" (R160). -/
def State.EndedWell (s : State) : Prop := s.status = .halted

/-- Everything but the register file, the flag and the program counter is unchanged: the status, the fault record, the
program's length, and every byte of the store. -/
def State.SameOutside (s t : State) : Prop :=
  t.status = s.status ∧ t.fault = s.fault ∧ t.progLen = s.progLen ∧ ∀ a, t.prog.read a = s.prog.read a

/-- Two states that agree in everything R34 lets a step read of the state: registers, flag, program counter, status. -/
def State.Agree (s u : State) : Prop :=
  (∀ q, u.reg q = s.reg q) ∧ u.flag = s.flag ∧ u.pc = s.pc ∧ u.status = s.status

/-- Two states that hold the same program: the same length, and the same word at every index below it (R34, R47). -/
def State.SameProgram (s u : State) : Prop :=
  u.progLen = s.progLen ∧ ∀ i : Index, i < s.progLen → u.fetchWord i = s.fetchWord i

end Sys2Proof.Machine
end

