-- ==== Sys2Proof/Certificates/Slice0/Obligations.lean ====
section
/-! DEFINITION. The statements for the provers. "Decision D<n>" is the spec's own choice (92_eei_decisions), "log entry <n>"
the assumption log's row about it. -/

open Sys2Proof Sys2Proof.Machine

/-! ## Move (40_move) -/

/-- R80, whole: encoding (decision D5, log entry 10), effect, frame; MOVI never faults. -/
def Obligations.MoviWritesImmediate : Prop :=
  ∀ (rd : Reg) (imm : Word) (s : State),
    encode (.movi rd imm) = 0#32 ++ 0x01#8 ++ 0#8 ++ 0#8 ++ BitVec.ofNat 8 rd.val ++ imm ∧
    ∃ t, exec (.movi rd imm) s = .next t ∧
      t.reg rd = imm ∧ (∀ q, q ≠ rd → t.reg q = s.reg q) ∧ t.pc = s.pc + 1 ∧ t.flag = s.flag ∧ s.SameOutside t

/-- The model's value of `MOVR_POLICY`: decision D2, log entry 6. MOVR completes and only `pc` changes, whatever `rd` and
`rn` are, the same register included. -/
def Obligations.MovrChangesOnlyPc : Prop :=
  ∀ (rd rn : Reg) (s : State),
    encode (.movr rd rn) = 0#32 ++ 0x02#8 ++ 0#8 ++ BitVec.ofNat 8 rn.val ++ BitVec.ofNat 8 rd.val ++ 0#64 ∧
    ∃ t, exec (.movr rd rn) s = .next t ∧
      (∀ q, t.reg q = s.reg q) ∧ t.pc = s.pc + 1 ∧ t.flag = s.flag ∧ s.SameOutside t

/-- Both values of `MOVR_POLICY` (40_move MOVR, decision D2, log entry 6), and that `exec` takes the one of Config. -/
def Obligations.MovrUnderEitherPolicy : Prop :=
  ∀ (rd rn : Reg) (s : State),
    exec (.movr rd rn) s = execMovrUnder Config.movrPolicy rd rn s ∧
    ∀ p, ∃ t, execMovrUnder p rd rn s = .next t ∧
      (∀ q, t.reg q = if p = .destinationWrite ∧ q = rd then s.reg rn else s.reg q) ∧
      t.pc = s.pc + 1 ∧ t.flag = s.flag ∧ s.SameOutside t

/-! ## Compare (41_compare) -/

/-- CMP: encoding (decision D5, log entry 10), the flag written on every execution (90_conflicts C1, decision D9, log entry
8), no register, and nothing of `pc` beyond the generic increment (90_conflicts C2, log entry 8). -/
def Obligations.CmpSetsFlagUnsigned : Prop :=
  ∀ (rn rm : Reg) (s : State),
    encode (.cmp rn rm) = 0#32 ++ 0x03#8 ++ BitVec.ofNat 8 rm.val ++ BitVec.ofNat 8 rn.val ++ 0#8 ++ 0#64 ∧
    ∃ t, exec (.cmp rn rm) s = .next t ∧
      t.flag = (if (s.reg rn).toNat < (s.reg rm).toNat then .lessThan else .equal) ∧
      (∀ q, t.reg q = s.reg q) ∧ t.pc = s.pc + 1 ∧ s.SameOutside t

/-! ## Arithmetic (42_arithmetic) -/

/-- ADD under `OVERFLOW_POLICY = wrap` (decision D3, log entry 7). -/
def Obligations.AddWrapsAround : Prop :=
  ∀ (rd rn rm : Reg) (s : State), ∃ t, exec (.add rd rn rm) s = .next t ∧
    (t.reg rd).toNat = ((s.reg rn).toNat + (s.reg rm).toNat) % 2 ^ 64 ∧
    (∀ q, q ≠ rd → t.reg q = s.reg q) ∧ t.pc = s.pc + 1 ∧ t.flag = s.flag ∧ s.SameOutside t

/-- SUB under `OVERFLOW_POLICY = wrap` (decision D3, log entry 7): operand 1 minus operand 2, the least non-negative
remainder of the true difference. -/
def Obligations.SubWrapsAround : Prop :=
  ∀ (rd rn rm : Reg) (s : State), ∃ t, exec (.sub rd rn rm) s = .next t ∧
    ((t.reg rd).toNat : Int) = (((s.reg rn).toNat : Int) - ((s.reg rm).toNat : Int)) % 2 ^ 64 ∧
    (∀ q, q ≠ rd → t.reg q = s.reg q) ∧ t.pc = s.pc + 1 ∧ t.flag = s.flag ∧ s.SameOutside t

/-- MUL under `OVERFLOW_POLICY = wrap` (decision D3, log entry 7): the low 64 bits of the product. -/
def Obligations.MulKeepsLowHalf : Prop :=
  ∀ (rd rn rm : Reg) (s : State), ∃ t, exec (.mul rd rn rm) s = .next t ∧
    (t.reg rd).toNat = (s.reg rn).toNat * (s.reg rm).toNat % 2 ^ 64 ∧
    (∀ q, q ≠ rd → t.reg q = s.reg q) ∧ t.pc = s.pc + 1 ∧ t.flag = s.flag ∧ s.SameOutside t

/-- DIV with a non-zero divisor: the greatest quotient (rounding down is decision D4, log entry 15). -/
def Obligations.DivRoundsDown : Prop :=
  ∀ (rd rn rm : Reg) (s : State), s.reg rm ≠ 0 → ∃ t, exec (.div rd rn rm) s = .next t ∧
    (t.reg rd).toNat * (s.reg rm).toNat ≤ (s.reg rn).toNat ∧
    (s.reg rn).toNat < ((t.reg rd).toNat + 1) * (s.reg rm).toNat ∧
    (∀ q, q ≠ rd → t.reg q = s.reg q) ∧ t.pc = s.pc + 1 ∧ t.flag = s.flag ∧ s.SameOutside t

/-- DIV with a zero divisor takes the fault and writes nothing but status and record (decision D11, log entry 13). -/
def Obligations.DivByZeroTakesFault : Prop :=
  ∀ (rd rn rm : Reg) (s : State), s.reg rm = 0 → ∃ t, exec (.div rd rn rm) s = .next t ∧
    t.status = .faulted ∧ t.fault = ⟨.divisionByZero, s.pc⟩ ∧
    (∀ q, t.reg q = s.reg q) ∧ t.flag = s.flag ∧ t.pc = s.pc ∧ t.progLen = s.progLen ∧
    ∀ a, t.prog.read a = s.prog.read a

/-- The overflow table of 42_arithmetic for the ALU as this hardware is configured (the spec's derivation from decision D3,
log entry 7), and the laws under it. -/
def Obligations.WrappingAluTable : Prop :=
  ∀ a b : Word,
    ((aluAdd Config.overflowPolicy a b).toNat =
      if 2 ^ 64 ≤ a.toNat + b.toNat then a.toNat + b.toNat - 2 ^ 64 else a.toNat + b.toNat) ∧
    ((aluSub Config.overflowPolicy a b).toNat =
      if a.toNat < b.toNat then a.toNat + 2 ^ 64 - b.toNat else a.toNat - b.toNat) ∧
    ((aluMul Config.overflowPolicy a b).toNat = a.toNat * b.toNat % 2 ^ 64) ∧
    aluAdd Config.overflowPolicy a b = aluAdd Config.overflowPolicy b a ∧
    aluMul Config.overflowPolicy a b = aluMul Config.overflowPolicy b a ∧
    aluAdd Config.overflowPolicy (aluSub Config.overflowPolicy a b) b = a

/-- The two policies of `OVERFLOW_POLICY` (decision D3, log entry 7): `wrap` reduces modulo 2^64, `saturate` clamps. -/
def Obligations.OverflowPoliciesNarrow : Prop :=
  ∀ v : Int,
    ((narrow .wrap v).toNat : Int) = v % 2 ^ 64 ∧
    ((narrow .saturate v).toNat : Int) = max 0 (min v (2 ^ 64 - 1)) ∧
    (0 ≤ v → v < 2 ^ 64 → narrow .wrap v = narrow .saturate v)

/-- The table of cases of DIV (42_arithmetic "Division"; rounding down is decision D4, log entry 15): the quotient never
exceeds the dividend, and each row. -/
def Obligations.DivisionCaseTable : Prop :=
  ∀ a b : Word, b ≠ 0 →
    (aluDiv a b).toNat ≤ a.toNat ∧
    a.toNat - (aluDiv a b).toNat * b.toNat < b.toNat ∧
    (aluDiv a b).toNat * b.toNat ≤ a.toNat ∧
    (a.toNat < b.toNat → aluDiv a b = 0) ∧
    (a = b → aluDiv a b = 1) ∧
    (b.toNat < a.toNat → 1 ≤ (aluDiv a b).toNat) ∧
    (b = 1 → aluDiv a b = a)

/-! ## Branch (43_branch) -/

/-- R120, whole: encoding (decision D5, log entry 10), effect, frame; the branch itself never faults. -/
def Obligations.BeqTakenOnEqual : Prop :=
  ∀ (T : Index) (s : State),
    encode (.beq T) = 0#32 ++ 0x08#8 ++ 0#8 ++ 0#8 ++ 0#8 ++ T ∧
    ∃ t, exec (.beq T) s = .next t ∧
      (s.flag = .equal → t.pc = T) ∧ (s.flag ≠ .equal → t.pc = s.pc + 1) ∧
      (∀ q, t.reg q = s.reg q) ∧ t.flag = s.flag ∧ s.SameOutside t

/-- R121, whole: encoding (decision D5, log entry 10), effect, frame, and "exactly one of `b.eq` and `b.lt` is taken". -/
def Obligations.BltTakenOnLessThan : Prop :=
  ∀ (T : Index) (s : State),
    encode (.blt T) = 0#32 ++ 0x09#8 ++ 0#8 ++ 0#8 ++ 0#8 ++ T ∧
    (∃ t, exec (.blt T) s = .next t ∧
      (s.flag = .lessThan → t.pc = T) ∧ (s.flag ≠ .lessThan → t.pc = s.pc + 1) ∧
      (∀ q, t.reg q = s.reg q) ∧ t.flag = s.flag ∧ s.SameOutside t) ∧
    branchTaken s.flag (.beq T) = !branchTaken s.flag (.blt T)

/-- The table of 43_branch on targets at and beyond the end: the branch's own step, then what the next step does with a
target below, at and above `LEN` (the record's index is decision D10, log entry 12); an untaken branch goes on whatever its
target is. Under `LOADER_VALIDATES_TARGETS` the third row never happens (the spec's derivation, on its open point D16, log
entry 17). -/
def Obligations.BranchTargetCheckedNextStep : Prop :=
  ∀ (s : State) (ins : Instr) (T : Index),
    s.status = .running → s.pc < s.progLen → s.instrAt s.pc = .ok ins → branchTarget ins = some T →
    ∃ t, step s = .next t ∧ t.status = .running ∧ t.progLen = s.progLen ∧
      (branchTaken s.flag ins = false → t.pc = s.pc + 1) ∧
      (branchTaken s.flag ins = true → t.pc = T ∧
        (T < s.progLen → ∀ j, s.instrAt T = .ok j → step t = exec j t) ∧
        (T = s.progLen → ∃ u, step t = .next u ∧ u.status = .halted ∧ ∀ q, u.reg q = s.reg q) ∧
        (s.progLen < T → ∃ u, step t = .next u ∧ u.status = .faulted ∧ u.fault = ⟨.invalidProgramCounter, T⟩)) ∧
      (s.TargetsValidated → T ≤ s.progLen)

/-- R123, whole: the flag is `Equal` at reset and until the first CMP executes, and there B.EQ is taken and B.LT is not. -/
def Obligations.BranchBeforeAnyCompare : Prop :=
  (∀ s : State, s.restart.flag = .equal) ∧
  (∀ s t : State, s.flag = .equal → step s = .next t →
    (s.pc < s.progLen → ∀ rn rm, s.instrAt s.pc ≠ .ok (.cmp rn rm)) → t.flag = .equal) ∧
  ∀ (s : State) (T : Index), s.flag = .equal →
    (∃ t, exec (.beq T) s = .next t ∧ t.pc = T) ∧ ∃ t, exec (.blt T) s = .next t ∧ t.pc = s.pc + 1

/-- A taken branch to itself repeats for ever, and nothing changes (43_branch B.EQ corner cases; 44_sequencer on
non-termination, the spec's derivation). -/
def Obligations.TakenSelfBranchRepeats : Prop :=
  ∀ (s : State) (ins : Instr), s.status = .running → s.pc < s.progLen → s.instrAt s.pc = .ok ins →
    branchTarget ins = some s.pc → branchTaken s.flag ins = true → ∀ k, core.run k s = .next s

/-! ## The driver (44_sequencer) -/

/-- R131, whole: the halt, its frame, that it is the only way to `Halted`, and the empty program. -/
def Obligations.HaltsAtProgramLength : Prop :=
  (∀ s : State, s.status = .running → s.pc = s.progLen → ∃ t, step s = .next t ∧ t.status = .halted ∧
    (∀ q, t.reg q = s.reg q) ∧ t.flag = s.flag ∧ t.pc = s.progLen ∧ t.fault = s.fault ∧ t.progLen = s.progLen ∧
    ∀ a, t.prog.read a = s.prog.read a) ∧
  (∀ s t : State, step s = .next t → t.status = .halted → s.pc = s.progLen) ∧
  ∀ s : State, s.progLen = 0 → ∃ t, step s.restart = .next t ∧ t.status = .halted ∧ ∀ q, t.reg q = 0

/-- The invalid program counter (44_sequencer section 2); that the record holds the bad `pc` is decision D10 (log entry
12), that nothing else changes decision D11 (log entry 13). -/
def Obligations.CounterBeyondLengthFaults : Prop :=
  ∀ s : State, s.status = .running → s.progLen < s.pc → ∃ t, step s = .next t ∧
    t.status = .faulted ∧ t.fault = ⟨.invalidProgramCounter, s.pc⟩ ∧
    (∀ q, t.reg q = s.reg q) ∧ t.flag = s.flag ∧ t.pc = s.pc ∧ t.progLen = s.progLen ∧
    ∀ a, t.prog.read a = s.prog.read a

/-- A step runs the decoded instruction, and adds nothing around it: the 16 bytes of the word at index `pc` (log entry 2)
are decoded, and the step is that instruction's effect. -/
def Obligations.StepRunsDecodedInstruction : Prop :=
  ∀ (s : State) (i : Instr) (rest : List Byte), s.status = .running → s.pc < s.progLen →
    decodeBytes (s.prog.readBytes (16 * s.pc.toNat) 16) = .ok (i, rest) → step s = exec i s

/-- A step that fetches an ill-formed word is refused by name (decision D6, log entry 14). -/
def Obligations.IllFormedFetchRefused : Prop :=
  ∀ (s : State) (r : IllFormed), s.status = .running → s.pc < s.progLen →
    decode (s.fetchWord s.pc) = .error r → step s = .refused (.illFormedWord r)

/-- R138, whole: no successor, and what the result of the run is in each terminal state. -/
def Obligations.TerminalStatesHaveNoStep : Prop :=
  ∀ s : State, s.status ≠ .running →
    (∀ t, step s ≠ .next t) ∧ (∀ k t, core.run (k + 1) s ≠ .next t) ∧
    (s.status = .halted → s.result = some (.snapshot s.regs)) ∧
    (s.status = .faulted → s.result = some (.report s.fault))

/-- R143: success is `Halted`, reached exactly by a step taken with `pc = LEN`, and then the host reads the registers. -/
def Obligations.SuccessExactlyAtLength : Prop :=
  ∀ s t : State, step s = .next t →
    (t.EndedWell ↔ s.pc = s.progLen) ∧ (s.pc = s.progLen → t.result = some (.snapshot s.regs))

/-- The machine of words and bytes refines the step function of 44_sequencer R134 written over natural numbers
(Machine/Reference.lean); the parameters are those of Config (decisions D2, D3, D4; log entries 6, 7, 15). -/
def Obligations.StepRefinesReference : Prop :=
  (∀ s : State, s.status = .running → s.ProgramWellFormed → ∃ t, step s = .next t ∧
    refStep s.absProg s.progLen.toNat s.abs = some t.abs ∧ t.absProg = s.absProg ∧ t.progLen = s.progLen) ∧
  ∀ s : State, s.status ≠ .running →
    refStep s.absProg s.progLen.toNat s.abs = none ∧ ∀ t, step s ≠ .next t

/-- "0 ≤ program counter ≤ length" under `LOADER_VALIDATES_TARGETS` (the spec's derivation in 44_sequencer section 3; the
premise is open decision D16, log entry 17), kept by every step from any state. -/
def Obligations.CounterStaysInRange : Prop :=
  ∀ s t : State, s.TargetsValidated → s.PcInRange → step s = .next t →
    t.TargetsValidated ∧ t.PcInRange ∧ (t.status = .faulted → t.fault.kind ≠ .invalidProgramCounter)

/-- Without the premise `pc > LEN` can hold "in one state only": after a taken branch with such a target, and before the
faulting step that follows it at once (the spec's derivation in 44_sequencer section 3; record: decision D10, log entry
12). -/
def Obligations.OutOfRangeOnlyAfterTakenBranch : Prop :=
  ∀ s t : State, s.PcInRange → step s = .next t → ¬ t.PcInRange →
    ∃ ins T, s.instrAt s.pc = .ok ins ∧ branchTarget ins = some T ∧ branchTaken s.flag ins = true ∧
      t.pc = T ∧ s.progLen < T ∧ t.status = .running ∧
      ∃ u, step t = .next u ∧ u.status = .faulted ∧ u.fault = ⟨.invalidProgramCounter, T⟩

/-- The increment never overflows (the spec's derivation in 44_sequencer section 3 from decision D7, log entry 11): a step
that executes an instruction other than a taken branch and does not fault adds one to `pc` as a number, up to `LEN`. -/
def Obligations.IncrementNeverOverflows : Prop :=
  ∀ (s t : State) (ins : Instr), s.pc < s.progLen → s.instrAt s.pc = .ok ins → branchTaken s.flag ins = false →
    step s = .next t → t.status = .running → t.pc.toNat = s.pc.toNat + 1 ∧ t.pc.toNat ≤ s.progLen.toNat

/-- The invariant of the state every step keeps, from any state: the program store in canonical form (the model's, log
entry 3), the fault record `(None, 0)` until a fault and then a kind with the `pc` it was raised at (decisions D10, D11;
log entries 12, 13), and a halted machine at `pc = LEN`. -/
def Obligations.StepKeepsStateInvariant : Prop :=
  ∀ s t : State, s.Inv → step s = .next t → t.Inv

/-- The reset state, a restart, and every state the Loader and a reset deliver meet the invariant. -/
def Obligations.ResetAndBootMeetStateInvariant : Prop :=
  State.reset.Inv ∧ (∀ s : State, s.prog.wf → s.restart.Inv) ∧ ∀ v ws s, boot v ws = .ok s → s.Inv

/-- A program with no branch ends: it halts after one step for each instruction left and one more, `pc` counting up to
`LEN`, or it stops earlier at a DIV whose divisor is zero (44_sequencer section 3, the spec's derivation; 90_conflicts
C6). Stated from any running state, for any such program. -/
def Obligations.BranchFreeProgramEnds : Prop :=
  ∀ s : State, s.status = .running → s.PcInRange → s.ProgramWellFormed → s.BranchFree →
    ∃ k t, core.run k s = .next t ∧
      (∀ j, j < k → ∃ u, core.run j s = .next u ∧ u.status = .running ∧ u.pc.toNat = s.pc.toNat + j) ∧
      ((t.status = .halted ∧ t.pc = s.progLen ∧ k = s.progLen.toNat - s.pc.toNat + 1) ∨
        (t.status = .faulted ∧ t.fault.kind = .divisionByZero ∧ k ≤ s.progLen.toNat - s.pc.toNat ∧
          ∃ rd rn rm, s.instrAt t.pc = .ok (.div rd rn rm) ∧ t.reg rm = 0))

/-! ## State (10_state, 20_memory) -/

/-- R50: in a run the program never changes: its length, every byte of the store, and so every fetch. -/
def Obligations.ProgramIsImmutable : Prop :=
  ∀ (k : Nat) (s t : State), core.run k s = .next t →
    t.progLen = s.progLen ∧ (∀ a, t.prog.read a = s.prog.read a) ∧ ∀ i, t.instrAt i = s.instrAt i

/-- The table of 10_state on who writes the registers (the MOVR row under decision D2, log entry 6): a register that a step
changes is the destination of the MOVI or Arithmetic instruction it executes. -/
def Obligations.OnlyMoveAndArithmeticWriteRegisters : Prop :=
  ∀ (s t : State) (q : Reg), step s = .next t → t.reg q ≠ s.reg q →
    s.pc < s.progLen ∧
    ((∃ imm, s.instrAt s.pc = .ok (.movi q imm)) ∨ (∃ rn rm, s.instrAt s.pc = .ok (.add q rn rm)) ∨
      (∃ rn rm, s.instrAt s.pc = .ok (.sub q rn rm)) ∨ (∃ rn rm, s.instrAt s.pc = .ok (.mul q rn rm)) ∨
      ∃ rn rm, s.instrAt s.pc = .ok (.div q rn rm) ∧ s.reg rm ≠ 0)

/-- "mutated only by Compare" (10_state, condition flag): a step that changes the flag executes a CMP. -/
def Obligations.OnlyCompareWritesFlag : Prop :=
  ∀ s t : State, step s = .next t → t.flag ≠ s.flag →
    s.pc < s.progLen ∧ ∃ rn rm, s.instrAt s.pc = .ok (.cmp rn rm) ∧ t.flag = compareFlag (s.reg rn) (s.reg rm)

/-- "read only by Branch" (10_state, condition flag): the flag's value changes nothing else of what any other instruction
does. -/
def Obligations.OnlyBranchReadsFlag : Prop :=
  ∀ (i : Instr) (s t : State) (f : Flag), branchTarget i = none → exec i s = .next t →
    ∃ t', exec i (s.setFlag f) = .next t' ∧ (∀ q, t'.reg q = t.reg q) ∧ t'.pc = t.pc ∧ t'.status = t.status ∧
      t'.fault = t.fault ∧ t'.progLen = t.progLen ∧ t'.prog = t.prog

/-- R34: a step is a function of registers, flag, `pc`, status, and the program below `LEN`, and of nothing else: not of the
fault record, and not of what the store holds elsewhere. -/
def Obligations.StepReadsNothingElse : Prop :=
  ∀ s u t : State, s.Agree u → s.SameProgram u → step s = .next t →
    ∃ v, step u = .next v ∧ t.Agree v ∧ t.SameProgram v ∧ (t.status = .faulted → v.fault = t.fault)

/-- R180, whole: reset from any state, that nothing but the program survives it, and that no step leads into `Running` or
out of a terminal state (values: decisions D8, D10; log entries 9, 12). -/
def Obligations.RestartEstablishesResetState : Prop :=
  ∀ s : State,
    (∀ q, s.restart.reg q = 0) ∧ s.restart.flag = .equal ∧ s.restart.pc = 0 ∧ s.restart.status = .running ∧
    s.restart.fault = ⟨.none, 0⟩ ∧ s.restart.progLen = s.progLen ∧ (∀ a, s.restart.prog.read a = s.prog.read a) ∧
    (∀ u : State, u.prog = s.prog → u.progLen = s.progLen → u.restart = s.restart) ∧
    ∀ t, step s = .next t → s.status = .running

/-- A word placed where the next step fetches is the instruction that step runs, from every state whose store is in
canonical form (the model's interface, log entry 4). -/
def Obligations.PlacedWordRunsNext : Prop :=
  ∀ (s : State) (w : InstrWord) (i : Instr), s.prog.wf → decode w = .ok i →
    step (s.withFetchWord 128 w.toNat) = exec i (s.withFetchWord 128 w.toNat) ∧
    (s.withFetchWord 128 w.toNat).status = .running ∧
    (∀ q, (s.withFetchWord 128 w.toNat).reg q = s.reg q) ∧ (s.withFetchWord 128 w.toNat).flag = s.flag

/-! ## Faults (60_exceptions) -/

/-- R152: DivisionByZero is raised by DIV and by no other instruction, exactly when `x[rm] = 0`, and writes status and
record only. The hypothesis on the record is the one R31 gives of a running machine. -/
def Obligations.DivisionByZeroRaisedOnlyByDiv : Prop :=
  ∀ s t : State, s.fault.kind = .none → step s = .next t →
    (t.fault.kind = .divisionByZero ↔
      s.pc < s.progLen ∧ ∃ rd rn rm, s.instrAt s.pc = .ok (.div rd rn rm) ∧ s.reg rm = 0) ∧
    (t.fault.kind = .divisionByZero → t.status = .faulted ∧ t.fault.index = s.pc ∧ (∀ q, t.reg q = s.reg q) ∧
      t.flag = s.flag ∧ t.pc = s.pc ∧ t.progLen = s.progLen ∧ ∀ a, t.prog.read a = s.prog.read a)

/-- Faults are precise, and at most one arises in a step (60_exceptions sections 2 and 4; the spec's derivation and
decisions D10, D11; log entries 12, 13): the faulting step leaves registers, flag, `pc` and program, and which fault it is
is settled by `pc` against `LEN`. -/
def Obligations.FaultsArePrecise : Prop :=
  ∀ s t : State, step s = .next t → t.status = .faulted →
    (∀ q, t.reg q = s.reg q) ∧ t.flag = s.flag ∧ t.pc = s.pc ∧ t.progLen = s.progLen ∧ t.prog = s.prog ∧
    t.fault.index = s.pc ∧ s.pc ≠ s.progLen ∧
    (t.fault.kind = .invalidProgramCounter ↔ s.progLen < s.pc) ∧ (t.fault.kind = .divisionByZero ↔ s.pc < s.progLen)

/-- The output ports say what the record means (codes: decision D10, log entry 12; ports: decision D13, log entry 20): where
the record agrees with the status, `fault_kind` is 0 exactly while `status` is not 2, and then `fault_index` is 0; and no
two statuses share a code. -/
def Obligations.FaultPortsAgreeWithStatus : Prop :=
  (∀ s : State, s.FaultRecordOk →
    (s.ports.faultKind = 0 ↔ s.ports.status ≠ 2) ∧ (s.ports.status ≠ 2 → s.ports.faultIndex = 0) ∧
    (s.ports.status = 2 → s.ports.faultIndex = s.pc)) ∧
  ∀ s u : State, s.ports.status = u.ports.status → s.status = u.status

/-- `fetch_index` is `pc` exactly while `pc < LEN`, whatever the status (70_reset section 3; ports: decision D13); that the
port holds nothing otherwise is the model's choice (log entry 20). Where it is given, a running machine's step is the effect of the word at that index, and where it is not, the step
fetches nothing and ends the run. -/
def Obligations.FetchIndexPresentedBelowLength : Prop :=
  ∀ s : State,
    (∀ i, s.ports.fetchIndex = some i ↔ i = s.pc ∧ s.pc < s.progLen) ∧
    (s.status = .running → ∀ i, s.ports.fetchIndex = some i → ∀ j, decode (s.fetchWord i) = .ok j → step s = exec j s) ∧
    (s.status = .running → s.ports.fetchIndex = none → ∃ t, step s = .next t ∧ t.status ≠ .running)

/-! ## Encoding and loading (30_encoding, 20_memory); the binary layer is decision D5 (log entry 10) -/

/-- Decoding an encoded instruction gives it back, whatever its operands, and from a byte image the rest is left over. -/
def Obligations.DecodeEncodeRoundTrip : Prop :=
  ∀ (i : Instr) (rest : List Byte), decode (encode i) = .ok i ∧ decodeBytes (encodeBytes i ++ rest) = .ok (i, rest)

/-- A word the decoder accepts is the encoding of what it reads: no two words mean the same instruction. -/
def Obligations.EncodeDecodeRoundTrip : Prop :=
  ∀ (w : InstrWord) (i : Instr), decode w = .ok i → encode i = w

/-- The decoder accepts a word as an operation exactly when the word meets that operation's mask, match and register
limits, and no word meets those of two operations (30_encoding, match and mask). -/
def Obligations.DecoderAgreesWithMaskTable : Prop :=
  ∀ (w : InstrWord) (o : Op),
    ((∃ i, decode w = .ok i ∧ i.op = o) ↔ o.matches w = true) ∧ ∀ p : Op, o.matches w = true → p.matches w = true → o = p

/-- The decoder, written from the pseudocode, and the format check, written from the format table, refuse the same words
under the same names (the names' order: log entry 14). -/
def Obligations.DecoderAgreesWithFormatCheck : Prop :=
  ∀ (w : InstrWord) (r : IllFormed), decode w = .error r ↔ (fieldsOf w).check = some r

/-- Words of the spec's worked encodings and decoder vectors, one a family and two that are refused. -/
def Obligations.WorkedEncodingsDecode : Prop :=
  decode 0x0000000001000000000000000000002A = .ok (.movi 0 42) ∧
  decode 0x00000000020001020000000000000000 = .ok (.movr 2 1) ∧
  decode 0x00000000030002000000000000000000 = .ok (.cmp 2 0) ∧
  decode 0x00000000050201000000000000000000 = .ok (.sub 0 1 2) ∧
  decode 0x00000000070301040000000000000000 = .ok (.div 4 1 3) ∧
  decode 0x00000000090000000000000000000003 = .ok (.blt 3) ∧
  decode 0x000000000100001F0000000000000001 = .error .registerField ∧
  decode 0x00000000000000000000000000000000 = .error .opcode

/-- A loaded program lies in the store as 20_memory has it (decision D12, log entry 2): byte `16 * i + k` holds bits
`[8k+7 : 8k]` of word `i`. -/
def Obligations.LoadedImageIsLittleEndian : Prop :=
  ∀ (v : Bool) (ws : List InstrWord) (s : State), boot v ws = .ok s →
    ∀ (i : Nat) (hi : i < ws.length) (k : Nat), k < 16 → s.prog.read (16 * i + k) = ws[i].extractLsb' (8 * k) 8

/-- The Loader's boundary (30_encoding section 5, 60_exceptions section 1, 70_reset section 2; decisions D6, D7; log entries
11, 14), with `LOADER_VALIDATES_TARGETS` (`v`; open point D16, log entry 17) and without: a program is refused exactly when
it is too long, or a word of it is ill-formed, or targets are validated and one is above the length; and one that is
delivered is whole, well-formed, and in the reset state. Which failure is named is not stated (log entry 22). -/
def Obligations.BootRefusesOrDeliversWholeProgram : Prop :=
  ∀ (v : Bool) (ws : List InstrWord),
    ((∃ e, boot v ws = .error e) ↔
      2 ^ 64 ≤ ws.length ∨ (∃ w ∈ ws, ∃ r, decode w = .error r) ∨
        (v = true ∧ ∃ w ∈ ws, ∃ i T, decode w = .ok i ∧ branchTarget i = some T ∧ ws.length < T.toNat)) ∧
    ∀ s, boot v ws = .ok s →
      s.progLen.toNat = ws.length ∧ s.ProgramWellFormed ∧ s.restart = s ∧
      ∀ (i : Nat) (hi : i < ws.length), s.instrAt (BitVec.ofNat 64 i) = decode ws[i]

/-- "If the Loader validates branch targets, a target above the program length is also a LoadError and never a run-time
fault" (60_exceptions section 1; `LOADER_VALIDATES_TARGETS` is open point D16, log entry 17): such a Loader delivers exactly
the programs that a Loader without the check delivers and whose targets are at most `LEN`; a program it turns away for no
other reason is refused by that error; and in every run of what it delivers `pc` stays in range and
`InvalidProgramCounter` is never raised. -/
def Obligations.ValidatingLoaderExcludesInvalidCounter : Prop :=
  ∀ ws : List InstrWord,
    (∀ s, boot true ws = .ok s ↔ boot false ws = .ok s ∧ s.TargetsValidated) ∧
    (∀ s, boot false ws = .ok s → ¬ s.TargetsValidated → ∃ k T, boot true ws = .error (.targetAboveLength k T)) ∧
    ∀ s, boot true ws = .ok s → ∀ k t, core.run k s = .next t →
      t.PcInRange ∧ t.fault.kind ≠ .invalidProgramCounter

/-! ## Program text (30_encoding section 7); the listing form is decision D18, blank means empty (log entry 16) -/

/-- The listing line of an instruction reads back as that instruction, for every operand value. -/
def Obligations.ListingReadsBack : Prop := ∀ i : Instr, parseLine (showInstr i) = .ok i

/-- The instructions of a text are those of its lines that are not blank, in order; any malformed line fails the whole
load. -/
def Obligations.NonBlankLinesAreTheProgram : Prop :=
  ∀ (lines : List (List Char)) (is : List Instr),
    assemble lines = .ok is ↔ (lines.filter fun l => l ≠ []).map parseLine = is.map .ok

/-- "Register tokens are exactly `x0`..`x30`": the token of a register, and no other text, names it. -/
def Obligations.RegisterTokensAreExactlyX0ToX30 : Prop :=
  ∀ (p : List Char) (r : Reg), readReg p = some r ↔ p = showReg r

/-- A program text that loads is in the machine as its instructions, in order, with `LEN` their number; and no text gives an
ill-formed word (30_encoding section 7, 70_reset section 2; the words are decision D5, log entry 10). -/
def Obligations.LoadedTextIsTheProgram : Prop :=
  ∀ (v : Bool) (lines : List (List Char)),
    (∀ s, bootText v lines = .ok s → ∃ is, assemble lines = .ok is ∧ s.progLen.toNat = is.length ∧
      ∀ (i : Nat) (hi : i < is.length), s.instrAt (BitVec.ofNat 64 i) = .ok is[i]) ∧
    ∀ k r, bootText v lines ≠ .error (.image (.illFormed k r))
end

