-- ==== Sys2Proof/Laws/Alu.lean ====
section
/-! SUPPORT. The ALU as fixed-width arithmetic: under `wrap` its results are those of 64-bit words (42_arithmetic R105 to
R108), and the comparator is the unsigned order (R109). -/

namespace Sys2Proof.Machine

/-- `wrap64` keeps the residue modulo 2^64 (R11). -/
theorem narrow_wrap (v : Int) : narrow .wrap v = BitVec.ofInt 64 v := rfl

theorem narrow_wrap_toNat (v : Int) : ((narrow .wrap v).toNat : Int) = v % 2 ^ 64 := by
  rw [narrow_wrap, BitVec.toNat_ofInt]
  have : (0 : Int) ≤ v % 2 ^ 64 := Int.emod_nonneg _ (by decide)
  simpa using this

theorem aluAdd_wrap (a b : Word) : aluAdd .wrap a b = a + b := by
  refine BitVec.eq_of_toNat_eq (Int.ofNat.inj ?_)
  have := narrow_wrap_toNat ((a.toNat : Int) + (b.toNat : Int))
  simp only [Int.ofNat_eq_natCast, aluAdd, this, BitVec.toNat_add]
  push_cast
  rfl

theorem aluSub_wrap (a b : Word) : aluSub .wrap a b = a - b := by
  refine BitVec.eq_of_toNat_eq (Int.ofNat.inj ?_)
  have := narrow_wrap_toNat ((a.toNat : Int) - (b.toNat : Int))
  simp only [Int.ofNat_eq_natCast, aluSub, this, BitVec.toNat_sub]
  omega

theorem aluMul_wrap (a b : Word) : aluMul .wrap a b = a * b := by
  refine BitVec.eq_of_toNat_eq (Int.ofNat.inj ?_)
  have := narrow_wrap_toNat ((a.toNat : Int) * (b.toNat : Int))
  simp only [Int.ofNat_eq_natCast, aluMul, this, BitVec.toNat_mul]
  push_cast
  rfl

/-- The quotient fits: "it never overflows" (R108). -/
theorem aluDiv_toNat (a b : Word) : (aluDiv a b).toNat = a.toNat / b.toNat := by
  rw [aluDiv, BitVec.toNat_ofNat, Nat.mod_eq_of_lt]
  exact lt_of_le_of_lt (Nat.div_le_self _ _) a.isLt

theorem compareFlag_eq_lessThan {a b : Word} : compareFlag a b = .lessThan ↔ a.toNat < b.toNat := by
  unfold compareFlag
  split <;> simp_all

theorem compareFlag_eq_equal {a b : Word} : compareFlag a b = .equal ↔ b.toNat ≤ a.toNat := by
  unfold compareFlag
  split <;> simp_all

end Sys2Proof.Machine
end

