-- ==== Sys2Proof/Laws/Decode.lean ====
section
/-! SUPPORT. The field layout of R62 is a bijection between words and their six fields, and a register number survives its
eight-bit field. Claims about words reduce to claims about fields with these. -/

namespace Sys2Proof

/-- Every bit of a word is in exactly one field (R62). -/
theorem wordOf_fieldsOf (w : InstrWord) : wordOf (fieldsOf w) = w := by
  refine BitVec.eq_of_getLsbD_eq fun i hi => ?_
  simp only [wordOf, fieldsOf, BitVec.getLsbD_append, BitVec.getLsbD_extractLsb']
  split_ifs
  all_goals
    rw [decide_eq_true (by omega), Bool.true_and]
    congr 1
    omega

/-- A field put into a word is read back from it (R62). -/
theorem fieldsOf_wordOf (f : Fields) : fieldsOf (wordOf f) = f := by
  cases f
  simp only [fieldsOf, wordOf, Fields.mk.injEq]
  refine ⟨?_, ?_, ?_, ?_, ?_, ?_⟩ <;>
  · refine BitVec.eq_of_getLsbD_eq fun i hi => ?_
    simp only [BitVec.getLsbD_append, BitVec.getLsbD_extractLsb']
    rw [decide_eq_true hi, Bool.true_and]
    split_ifs
    all_goals first | omega | (congr 1; omega)

/-- Fields determine the word. -/
theorem fieldsOf_injective {w v : InstrWord} (h : fieldsOf w = fieldsOf v) : w = v := by
  rw [← wordOf_fieldsOf w, h, wordOf_fieldsOf]

/-- A register number survives its field (R66). -/
@[simp] theorem regOfField_fieldOfReg (r : Reg) : regOfField (fieldOfReg r) = some r := by
  have h : (fieldOfReg r).toNat = r.val := by
    simp only [fieldOfReg, BitVec.toNat_ofNat]
    omega
  have hlt : (fieldOfReg r).toNat < 31 := by omega
  rw [regOfField, dif_pos hlt]
  exact congrArg some (Fin.ext h)

/-- A legal register field is the field of the register it names (R65, R66). -/
theorem regOfField_eq_some {b : Byte} {r : Reg} : regOfField b = some r ↔ b = fieldOfReg r := by
  constructor
  · intro h
    unfold regOfField at h
    split at h
    · cases h
      simp [fieldOfReg]
    · cases h
  · rintro rfl
    exact regOfField_fieldOfReg r

/-- A register field is illegal exactly when it holds 31 to 255 (R66). -/
theorem regOfField_eq_none {b : Byte} : regOfField b = none ↔ 31 ≤ b.toNat := by
  unfold regOfField
  split <;> simp <;> omega

/-- The zero field and operation code of an encoded instruction are those of R63. -/
@[simp] theorem encodeFields_zero (i : Instr) : (encodeFields i).zero = 0 := by cases i <;> rfl

@[simp] theorem encodeFields_op (i : Instr) : (encodeFields i).op = i.op.code := by cases i <;> rfl

/-- Decoding an encoded instruction looks at its fields. -/
theorem decode_encode_eq (i : Instr) : decode (encode i) = decodeFields (encodeFields i) := by
  rw [decode, encode, fieldsOf_wordOf]

end Sys2Proof
end

