-- ==== Sys2Proof/Laws/Memory.lean ====
section
/-! SUPPORT. The program store: a read after a write gives the value written, every other byte is as before, and every
operation keeps the canonical form; the same for words (20_memory R41, R44). -/

namespace Sys2Proof.Machine

/-! ### Bytes -/

/-- What a byte reads after one write. -/
theorem Memory.read_write (m : Memory) (a b : Nat) (v : Byte) (h : m.Pairwise (fun c d => c.1 < d.1)) :
    Memory.read (Memory.write m a v) b = if b = a then v else Memory.read m b := by
  induction m with
  | nil =>
    by_cases hv : v = Memory.unlisted <;> by_cases hb : b = a <;>
      simp [Memory.write, Memory.read, hv, hb, Ne.symm]
  | cons c m ih =>
    obtain ⟨k, w⟩ := c
    rw [List.pairwise_cons] at h
    have habs : ∀ x, x ≤ k → Memory.read m x = Memory.unlisted := by
      intro x hx
      have hgt : ∀ d ∈ m, x < d.1 := fun d hd => lt_of_le_of_lt hx (h.1 d hd)
      clear ih h
      induction m with
      | nil => rfl
      | cons d m ih2 =>
        have hd := hgt d (by simp)
        simp only [Memory.read]
        rw [if_neg (by omega)]
        exact ih2 (fun e he => hgt e (by simp [he]))
    simp only [Memory.write]
    split
    · rename_i hak
      by_cases hv : v = Memory.unlisted
      · rw [if_pos hv]
        split
        · rename_i hb
          subst hb
          simp only [Memory.read]
          rw [if_neg (by omega), habs _ (by omega), hv]
        · rfl
      · rw [if_neg hv]
        simp only [Memory.read, eq_comm]
    · split
      · rename_i hak hk
        subst hk
        by_cases hv : v = Memory.unlisted
        · rw [if_pos hv]
          split
          · rename_i hb
            rw [hb, habs _ le_rfl, hv]
          · rename_i hb
            simp only [Memory.read]
            rw [if_neg (Ne.symm hb)]
        · rw [if_neg hv]
          simp only [Memory.read, eq_comm]
          split <;> simp_all
      · rename_i hak hk
        simp only [Memory.read, ih h.2]
        split
        · rename_i hb
          rw [if_neg (by omega)]
        · rfl

/-- A key of the memory after a write is the address written or was there before. -/
theorem Memory.mem_write {m : Memory} {a : Nat} {v : Byte} {c : Host.Cell} (h : c ∈ Memory.write m a v) :
    (c = (a, v) ∧ v ≠ Memory.unlisted) ∨ c ∈ m := by
  induction m with
  | nil =>
    simp only [Memory.write] at h
    split at h <;> simp_all
  | cons d m ih =>
    obtain ⟨k, w⟩ := d
    simp only [Memory.write] at h
    split at h
    · split at h <;> simp_all
    · split at h
      · split at h <;> simp_all
        tauto
      · rw [List.mem_cons] at h
        rcases h with h | h
        · simp [h]
        · rcases ih h with h | h <;> simp [h]

/-- A write keeps the canonical form. -/
theorem Memory.wf_write {m : Memory} (a : Nat) (v : Byte) (h : m.wf) : (m.write a v).wf := by
  refine ⟨?_, fun c hc => ?_⟩
  · have hp := h.1
    clear h
    induction m with
    | nil =>
      simp only [Memory.write]
      split <;> simp
    | cons d m ih =>
      obtain ⟨k, w⟩ := d
      rw [List.pairwise_cons] at hp
      simp only [Memory.write]
      split
      · rename_i hak
        split
        · exact List.pairwise_cons.2 hp
        · refine List.pairwise_cons.2 ⟨fun c hc => ?_, List.pairwise_cons.2 hp⟩
          rcases List.mem_cons.1 hc with rfl | hc
          · exact hak
          · exact lt_trans hak (hp.1 c hc)
      · split
        · rename_i hk
          subst hk
          split
          · exact hp.2
          · exact List.pairwise_cons.2 hp
        · refine List.pairwise_cons.2 ⟨fun c hc => ?_, ih hp.2⟩
          rcases Memory.mem_write hc with ⟨rfl, _⟩ | hc
          · dsimp only
            omega
          · exact hp.1 c hc
  · rcases Memory.mem_write hc with ⟨rfl, hv⟩ | hc
    · exact hv
    · exact h.2 c hc

/-! ### Byte strings -/

theorem Memory.wf_writeBytes {m : Memory} (a : Nat) (bs : List Byte) (h : m.wf) : (m.writeBytes a bs).wf := by
  induction bs generalizing m a with
  | nil => exact h
  | cons b bs ih => exact ih (a + 1) (Memory.wf_write a b h)

theorem Memory.read_writeBytes_out {m : Memory} (a b : Nat) (bs : List Byte) (h : m.wf)
    (hb : b < a ∨ a + bs.length ≤ b) : (m.writeBytes a bs).read b = m.read b := by
  induction bs generalizing m a with
  | nil => rfl
  | cons c bs ih =>
    simp only [List.length_cons] at hb
    rw [Memory.writeBytes, ih (a + 1) (Memory.wf_write a c h) (by omega), Memory.read_write _ _ _ _ h.1,
      if_neg (by omega)]

theorem Memory.readBytes_congr {m m' : Memory} (a n : Nat) (h : ∀ k, k < n → m.read (a + k) = m'.read (a + k)) :
    m.readBytes a n = m'.readBytes a n := by
  induction n generalizing a with
  | zero => rfl
  | succ n ih =>
    simp only [Memory.readBytes]
    rw [show m.read a = m'.read a from h 0 (by omega)]
    rw [ih (a + 1) fun k hk => by
      have := h (k + 1) (by omega)
      rwa [show a + (k + 1) = a + 1 + k by omega] at this]

/-- A byte string put into the store is what is read there. -/
theorem Memory.readBytes_writeBytes {m : Memory} (a : Nat) (bs : List Byte) (h : m.wf) :
    (m.writeBytes a bs).readBytes a bs.length = bs := by
  induction bs generalizing m a with
  | nil => rfl
  | cons b bs ih =>
    have hw := Memory.wf_write a b h
    simp only [List.length_cons, Memory.readBytes, Memory.writeBytes]
    rw [ih (a + 1) hw, Memory.read_writeBytes_out (a + 1) a bs hw (by omega), Memory.read_write _ _ _ _ h.1,
      if_pos rfl]

/-! ### Byte order (R44) -/

@[simp] theorem length_leBytes (n v : Nat) : (leBytes n v).length = n := by
  induction n generalizing v with
  | zero => rfl
  | succ n ih => simp [leBytes, ih]

/-- The bytes of a number stand for it, modulo what they can hold. -/
theorem leNat_leBytes (n v : Nat) : leNat (leBytes n v) = v % 256 ^ n := by
  induction n generalizing v with
  | zero => simp [leBytes, leNat, Nat.mod_one]
  | succ n ih =>
    rw [leBytes, leNat, ih, BitVec.toNat_ofNat]
    rw [show 2 ^ 8 = 256 from rfl, pow_succ', Nat.mod_mul]

@[simp] theorem length_wordBytes (w : InstrWord) : (wordBytes w).length = 16 := length_leBytes 16 _

/-- A word is what its 16 bytes stand for. -/
theorem ofNat_leNat_wordBytes (w : InstrWord) : BitVec.ofNat 128 (leNat (wordBytes w)) = w := by
  rw [wordBytes, leNat_leBytes, Nat.mod_eq_of_lt (by simpa using w.isLt), BitVec.ofNat_toNat, BitVec.setWidth_eq]

/-! ### Words -/

theorem Memory.wf_writeWord {m : Memory} (i : Nat) (w : InstrWord) (h : m.wf) : (m.writeWord i w).wf :=
  Memory.wf_writeBytes _ _ h

/-- A word put at an index is the word fetched there. -/
theorem Memory.readWord_writeWord {m : Memory} (i : Nat) (w : InstrWord) (h : m.wf) :
    (m.writeWord i w).readWord i = w := by
  have := Memory.readBytes_writeBytes (byteAddr i) (wordBytes w) h
  rw [length_wordBytes] at this
  rw [Memory.readWord, Memory.writeWord, this, ofNat_leNat_wordBytes]

/-- A word put at one index leaves the word at every other index alone. -/
theorem Memory.readWord_writeWord_ne {m : Memory} {i j : Nat} (w : InstrWord) (h : m.wf) (hij : j ≠ i) :
    (m.writeWord i w).readWord j = m.readWord j := by
  rw [Memory.readWord, Memory.readWord, Memory.writeWord,
    Memory.readBytes_congr (m' := m) (byteAddr j) 16 fun k hk =>
      Memory.read_writeBytes_out _ _ _ h (by simp only [length_wordBytes, byteAddr]; omega)]

theorem Memory.wf_writeWords {m : Memory} (k : Nat) (ws : List InstrWord) (h : m.wf) : (m.writeWords k ws).wf := by
  induction ws generalizing m k with
  | nil => exact h
  | cons w ws ih => exact ih (k + 1) (Memory.wf_writeWord k w h)

theorem Memory.readWord_writeWords_out {m : Memory} (k j : Nat) (ws : List InstrWord) (h : m.wf)
    (hj : j < k ∨ k + ws.length ≤ j) : (m.writeWords k ws).readWord j = m.readWord j := by
  induction ws generalizing m k with
  | nil => rfl
  | cons w ws ih =>
    simp only [List.length_cons] at hj
    rw [Memory.writeWords, ih (k + 1) (Memory.wf_writeWord k w h) (by omega),
      Memory.readWord_writeWord_ne w h (by omega)]

/-- Loading a program puts each word at its own index. -/
theorem Memory.readWord_writeWords {m : Memory} (k j : Nat) (ws : List InstrWord) (h : m.wf) (hj : j < ws.length) :
    (m.writeWords k ws).readWord (k + j) = ws[j] := by
  induction ws generalizing m k j with
  | nil => simp at hj
  | cons w ws ih =>
    have hw := Memory.wf_writeWord k w h
    cases j with
    | zero =>
      rw [Memory.writeWords, Memory.readWord_writeWords_out (k + 1) _ ws hw (by omega)]
      simpa using Memory.readWord_writeWord k w h
    | succ j =>
      have := ih (k + 1) j hw (by simpa using hj)
      rw [Memory.writeWords, show k + (j + 1) = k + 1 + j by omega]
      simpa using this

/-- The reset state's store, and every store the Loader delivers, is in canonical form. -/
theorem State.reset_wf : State.reset.prog.wf := by
  simp [State.reset, Memory.wf]

theorem State.placeAtFetch_wf {s : State} (w : InstrWord) (h : s.prog.wf) : (s.placeAtFetch w).prog.wf := by
  rw [show (s.placeAtFetch w).prog = s.prog.writeWord s.fetchSlot.toNat w from rfl]
  exact Memory.wf_writeWord s.fetchSlot.toNat w h

end Sys2Proof.Machine
end

