-- ==== Sys2Proof/Laws/State.lean ====
section
/-! SUPPORT. One lemma per field per update of the state, so that no proof unfolds a record update; and what the registers
read after each of them (10_state R21, R22). -/

namespace Sys2Proof.Machine

/-! ### setReg -/

@[simp] theorem State.setReg_regs (s : State) (r : Reg) (v : Word) : (s.setReg r v).regs = s.regs.set r.val v r.isLt := rfl
@[simp] theorem State.setReg_flag (s : State) (r : Reg) (v : Word) : (s.setReg r v).flag = s.flag := rfl
@[simp] theorem State.setReg_pc (s : State) (r : Reg) (v : Word) : (s.setReg r v).pc = s.pc := rfl
@[simp] theorem State.setReg_status (s : State) (r : Reg) (v : Word) : (s.setReg r v).status = s.status := rfl
@[simp] theorem State.setReg_fault (s : State) (r : Reg) (v : Word) : (s.setReg r v).fault = s.fault := rfl
@[simp] theorem State.setReg_prog (s : State) (r : Reg) (v : Word) : (s.setReg r v).prog = s.prog := rfl
@[simp] theorem State.setReg_progLen (s : State) (r : Reg) (v : Word) : (s.setReg r v).progLen = s.progLen := rfl

/-! ### setFlag -/

@[simp] theorem State.setFlag_regs (s : State) (f : Flag) : (s.setFlag f).regs = s.regs := rfl
@[simp] theorem State.setFlag_flag (s : State) (f : Flag) : (s.setFlag f).flag = f := rfl
@[simp] theorem State.setFlag_pc (s : State) (f : Flag) : (s.setFlag f).pc = s.pc := rfl
@[simp] theorem State.setFlag_status (s : State) (f : Flag) : (s.setFlag f).status = s.status := rfl
@[simp] theorem State.setFlag_fault (s : State) (f : Flag) : (s.setFlag f).fault = s.fault := rfl
@[simp] theorem State.setFlag_prog (s : State) (f : Flag) : (s.setFlag f).prog = s.prog := rfl
@[simp] theorem State.setFlag_progLen (s : State) (f : Flag) : (s.setFlag f).progLen = s.progLen := rfl
@[simp] theorem State.setFlag_reg (s : State) (f : Flag) (q : Reg) : (s.setFlag f).reg q = s.reg q := rfl

/-! ### setPc -/

@[simp] theorem State.setPc_regs (s : State) (t : Index) : (s.setPc t).regs = s.regs := rfl
@[simp] theorem State.setPc_flag (s : State) (t : Index) : (s.setPc t).flag = s.flag := rfl
@[simp] theorem State.setPc_pc (s : State) (t : Index) : (s.setPc t).pc = t := rfl
@[simp] theorem State.setPc_status (s : State) (t : Index) : (s.setPc t).status = s.status := rfl
@[simp] theorem State.setPc_fault (s : State) (t : Index) : (s.setPc t).fault = s.fault := rfl
@[simp] theorem State.setPc_prog (s : State) (t : Index) : (s.setPc t).prog = s.prog := rfl
@[simp] theorem State.setPc_progLen (s : State) (t : Index) : (s.setPc t).progLen = s.progLen := rfl
@[simp] theorem State.setPc_reg (s : State) (t : Index) (q : Reg) : (s.setPc t).reg q = s.reg q := rfl

/-! ### nextPc -/

@[simp] theorem State.nextPc_regs (s : State) : s.nextPc.regs = s.regs := rfl
@[simp] theorem State.nextPc_flag (s : State) : s.nextPc.flag = s.flag := rfl
@[simp] theorem State.nextPc_pc (s : State) : s.nextPc.pc = s.pc + 1 := rfl
@[simp] theorem State.nextPc_status (s : State) : s.nextPc.status = s.status := rfl
@[simp] theorem State.nextPc_fault (s : State) : s.nextPc.fault = s.fault := rfl
@[simp] theorem State.nextPc_prog (s : State) : s.nextPc.prog = s.prog := rfl
@[simp] theorem State.nextPc_progLen (s : State) : s.nextPc.progLen = s.progLen := rfl
@[simp] theorem State.nextPc_reg (s : State) (q : Reg) : s.nextPc.reg q = s.reg q := rfl

/-! ### raise -/

@[simp] theorem State.raise_regs (s : State) (k : FaultKind) (i : Index) : (s.raise k i).regs = s.regs := rfl
@[simp] theorem State.raise_flag (s : State) (k : FaultKind) (i : Index) : (s.raise k i).flag = s.flag := rfl
@[simp] theorem State.raise_pc (s : State) (k : FaultKind) (i : Index) : (s.raise k i).pc = s.pc := rfl
@[simp] theorem State.raise_status (s : State) (k : FaultKind) (i : Index) : (s.raise k i).status = .faulted := rfl
@[simp] theorem State.raise_fault (s : State) (k : FaultKind) (i : Index) : (s.raise k i).fault = ⟨k, i⟩ := rfl
@[simp] theorem State.raise_prog (s : State) (k : FaultKind) (i : Index) : (s.raise k i).prog = s.prog := rfl
@[simp] theorem State.raise_progLen (s : State) (k : FaultKind) (i : Index) : (s.raise k i).progLen = s.progLen := rfl
@[simp] theorem State.raise_reg (s : State) (k : FaultKind) (i : Index) (q : Reg) : (s.raise k i).reg q = s.reg q := rfl

/-! ### halt -/

@[simp] theorem State.halt_regs (s : State) : s.halt.regs = s.regs := rfl
@[simp] theorem State.halt_flag (s : State) : s.halt.flag = s.flag := rfl
@[simp] theorem State.halt_pc (s : State) : s.halt.pc = s.pc := rfl
@[simp] theorem State.halt_status (s : State) : s.halt.status = .halted := rfl
@[simp] theorem State.halt_fault (s : State) : s.halt.fault = s.fault := rfl
@[simp] theorem State.halt_prog (s : State) : s.halt.prog = s.prog := rfl
@[simp] theorem State.halt_progLen (s : State) : s.halt.progLen = s.progLen := rfl
@[simp] theorem State.halt_reg (s : State) (q : Reg) : s.halt.reg q = s.reg q := rfl

/-! ### restart -/

@[simp] theorem State.restart_regs (s : State) : s.restart.regs = Vector.replicate 31 0 := rfl
@[simp] theorem State.restart_flag (s : State) : s.restart.flag = Config.flagReset := rfl
@[simp] theorem State.restart_pc (s : State) : s.restart.pc = 0 := rfl
@[simp] theorem State.restart_status (s : State) : s.restart.status = .running := rfl
@[simp] theorem State.restart_fault (s : State) : s.restart.fault = FaultRecord.clear := rfl
@[simp] theorem State.restart_prog (s : State) : s.restart.prog = s.prog := rfl
@[simp] theorem State.restart_progLen (s : State) : s.restart.progLen = s.progLen := rfl

/-! ### placeAtFetch -/

@[simp] theorem State.placeAtFetch_regs (s : State) (w : InstrWord) : (s.placeAtFetch w).regs = s.regs := rfl
@[simp] theorem State.placeAtFetch_flag (s : State) (w : InstrWord) : (s.placeAtFetch w).flag = s.flag := rfl
@[simp] theorem State.placeAtFetch_pc (s : State) (w : InstrWord) : (s.placeAtFetch w).pc = s.fetchSlot := rfl
@[simp] theorem State.placeAtFetch_status (s : State) (w : InstrWord) : (s.placeAtFetch w).status = .running := rfl
@[simp] theorem State.placeAtFetch_fault (s : State) (w : InstrWord) : (s.placeAtFetch w).fault = (if s.status = .running then s.fault else FaultRecord.clear) := rfl
@[simp] theorem State.placeAtFetch_prog (s : State) (w : InstrWord) : (s.placeAtFetch w).prog = s.prog.writeWord s.fetchSlot.toNat w := rfl
@[simp] theorem State.placeAtFetch_progLen (s : State) (w : InstrWord) : (s.placeAtFetch w).progLen = (if s.fetchSlot < s.progLen then s.progLen else s.fetchSlot + 1) := rfl
@[simp] theorem State.placeAtFetch_reg (s : State) (w : InstrWord) (q : Reg) : (s.placeAtFetch w).reg q = s.reg q := rfl

/-! ### Registers -/

theorem State.reg_def (s : State) (r : Reg) : s.reg r = s.regs[r.val] := rfl

/-- A write to `x[r]` is what `x[r]` then reads, and "changes `x[i]` and no other register" (R21, R22). -/
theorem State.reg_setReg (s : State) (r q : Reg) (v : Word) :
    (s.setReg r v).reg q = if q = r then v else s.reg q := by
  simp only [State.reg_def, State.setReg_regs, Vector.getElem_set, Fin.ext_iff, eq_comm]

@[simp] theorem State.reg_setReg_self (s : State) (r : Reg) (v : Word) : (s.setReg r v).reg r = v := by
  simp [State.reg_setReg]

theorem State.reg_setReg_ne (s : State) {r q : Reg} (v : Word) (h : q ≠ r) : (s.setReg r v).reg q = s.reg q := by
  simp [State.reg_setReg, h]

/-- Writing back the value just read changes nothing (R81). -/
theorem State.setReg_reg_self (s : State) (r : Reg) : s.setReg r (s.reg r) = s := by
  cases s
  simp [State.reg, State.setReg, Vector.get]

@[simp] theorem State.reg_restart (s : State) (q : Reg) : s.restart.reg q = 0 := by
  simp [State.reg, Vector.get]

@[simp] theorem State.reg_reset (q : Reg) : State.reset.reg q = 0 := State.reg_restart State.reset q

/-- Two states are equal when every register and every other field is. -/
theorem State.ext_reg {s t : State} (hr : ∀ q, s.reg q = t.reg q) (hf : s.flag = t.flag) (hp : s.pc = t.pc)
    (hs : s.status = t.status) (hx : s.fault = t.fault) (hm : s.prog = t.prog) (hl : s.progLen = t.progLen) :
    s = t := by
  have hregs : s.regs = t.regs := by
    refine Vector.ext fun i hi => ?_
    exact hr ⟨i, hi⟩
  cases s
  cases t
  simp_all

/-! ### The branch redirector -/

@[simp] theorem State.branch_pc (s : State) (b : Bool) (t : Index) :
    (s.branch b t).pc = if b then t else s.pc + 1 := by
  cases b <;> rfl

@[simp] theorem State.branch_regs (s : State) (b : Bool) (t : Index) : (s.branch b t).regs = s.regs := by cases b <;> rfl
@[simp] theorem State.branch_flag (s : State) (b : Bool) (t : Index) : (s.branch b t).flag = s.flag := by cases b <;> rfl
@[simp] theorem State.branch_status (s : State) (b : Bool) (t : Index) : (s.branch b t).status = s.status := by cases b <;> rfl
@[simp] theorem State.branch_fault (s : State) (b : Bool) (t : Index) : (s.branch b t).fault = s.fault := by cases b <;> rfl
@[simp] theorem State.branch_prog (s : State) (b : Bool) (t : Index) : (s.branch b t).prog = s.prog := by cases b <;> rfl
@[simp] theorem State.branch_progLen (s : State) (b : Bool) (t : Index) : (s.branch b t).progLen = s.progLen := by cases b <;> rfl
@[simp] theorem State.branch_reg (s : State) (b : Bool) (t : Index) (q : Reg) : (s.branch b t).reg q = s.reg q := by cases b <;> rfl

end Sys2Proof.Machine
end

