-- ==== Sys2Proof/Laws/Loader.lean ====
section
/-! SUPPORT. The Loader's boundary said once: when each of its two searches finds nothing, when `boot` delivers and when it
refuses, and what the state it delivers holds (30_encoding R70, R71; 60_exceptions R154; 70_reset R182). -/

namespace Sys2Proof.Machine

/-! ### The two searches -/

/-- No ill-formed word is found exactly where every word decodes. -/
theorem firstIllFormed_eq_none (k : Nat) (ws : List InstrWord) :
    firstIllFormed k ws = none ↔ ∀ w ∈ ws, ∃ i, decode w = .ok i := by
  induction ws generalizing k with
  | nil => simp [firstIllFormed]
  | cons w ws ih =>
    unfold firstIllFormed
    cases hd : decode w <;> simp [hd, ih]

/-- A word's target is the target of the branch it decodes to. -/
theorem wordTarget_eq_some (w : InstrWord) (t : Index) :
    wordTarget w = some t ↔ ∃ i, decode w = .ok i ∧ branchTarget i = some t := by
  unfold wordTarget
  cases decode w <;> simp

/-- No target is found exactly where none is above `len`. -/
theorem firstTargetAbove_eq_none (len k : Nat) (ws : List InstrWord) :
    firstTargetAbove len k ws = none ↔ ∀ w ∈ ws, ∀ t, wordTarget w = some t → t.toNat ≤ len := by
  induction ws generalizing k with
  | nil => simp [firstTargetAbove]
  | cons w ws ih =>
    unfold firstTargetAbove
    cases hw : wordTarget w with
    | none => simp [hw, ih]
    | some t =>
      by_cases h : len < t.toNat
      · simp [hw, h]
      · simp [hw, h, ih, Nat.le_of_not_lt h]

/-! ### Delivering and refusing -/

/-- When the Loader finds nothing wrong. -/
theorem loadError_eq_none (v : Bool) (ws : List InstrWord) :
    loadError v ws = none ↔ ws.length < 2 ^ 64 ∧ (∀ w ∈ ws, ∃ i, decode w = .ok i) ∧
      (v = true → ∀ w ∈ ws, ∀ t, wordTarget w = some t → t.toNat ≤ ws.length) := by
  rw [← firstIllFormed_eq_none 0, ← firstTargetAbove_eq_none ws.length 0]
  unfold loadError
  split
  · simp; omega
  · cases firstIllFormed 0 ws <;> cases v <;> cases firstTargetAbove ws.length 0 ws <;> simp <;> omega

/-- `boot` delivers the loaded state, and that only. -/
theorem boot_eq_ok (v : Bool) (ws : List InstrWord) (s : State) :
    boot v ws = .ok s ↔ loadError v ws = none ∧ s = loadedState ws := by
  unfold boot
  cases loadError v ws <;> simp [eq_comm]

/-- `boot` refuses by the Loader's error. -/
theorem boot_eq_error (v : Bool) (ws : List InstrWord) (e : LoadError) :
    boot v ws = .error e ↔ loadError v ws = some e := by
  unfold boot
  cases loadError v ws <;> simp

/-! ### The loaded state -/

@[simp] theorem loadedState_regs (ws : List InstrWord) : (loadedState ws).regs = State.reset.regs := rfl
@[simp] theorem loadedState_flag (ws : List InstrWord) : (loadedState ws).flag = Config.flagReset := rfl
@[simp] theorem loadedState_pc (ws : List InstrWord) : (loadedState ws).pc = 0 := rfl
@[simp] theorem loadedState_status (ws : List InstrWord) : (loadedState ws).status = .running := rfl
@[simp] theorem loadedState_fault (ws : List InstrWord) : (loadedState ws).fault = FaultRecord.clear := rfl
@[simp] theorem loadedState_prog (ws : List InstrWord) : (loadedState ws).prog = Memory.writeWords [] 0 ws := rfl
@[simp] theorem loadedState_progLen (ws : List InstrWord) : (loadedState ws).progLen = BitVec.ofNat 64 ws.length := rfl
@[simp] theorem loadedState_restart (ws : List InstrWord) : (loadedState ws).restart = loadedState ws := rfl

/-- `LEN` is the number of words. -/
theorem loadedState_progLen_toNat {ws : List InstrWord} (h : ws.length < 2 ^ 64) :
    (loadedState ws).progLen.toNat = ws.length := by
  simp only [loadedState_progLen, BitVec.toNat_ofNat]
  exact Nat.mod_eq_of_lt h

/-- The store is in canonical form. -/
theorem loadedState_wf (ws : List InstrWord) : (loadedState ws).prog.wf := Memory.wf_writeWords 0 ws State.reset_wf

/-- The word at each index is the program's. -/
theorem loadedState_fetchWord {ws : List InstrWord} {i : Index} (hi : i.toNat < ws.length) :
    (loadedState ws).fetchWord i = ws[i.toNat] := by
  have := Memory.readWord_writeWords 0 i.toNat ws State.reset_wf hi
  rwa [Nat.zero_add] at this

/-- And so is the instruction. -/
theorem loadedState_instrAt {ws : List InstrWord} {i : Index} (hi : i.toNat < ws.length) :
    (loadedState ws).instrAt i = decode ws[i.toNat] := congrArg decode (loadedState_fetchWord hi)

end Sys2Proof.Machine
end

