-- ==== Sys2Proof/Laws/PerInstr.lean ====
section
/-! SUPPORT. Families of statements about instructions as text, one lemma per constructor. -/

namespace Sys2Proof.Laws

/-- The word of an instruction passes the format check of R64, R65 and R71: operation code known, unused fields zero, used
register fields at most 30. -/
def CleanWord.Statement (i : Instr) : Prop := (fieldsOf (encode i)).check = none

/-- The field of a register holds 0 to 30. -/
theorem fieldOfReg_le (r : Reg) : (fieldOfReg r).toNat ≤ 30 := by
  simp only [fieldOfReg, BitVec.toNat_ofNat]
  omega

/-- The check of an encoded instruction is the check of its fields under its own format. -/
theorem CleanWord.of_fields {i : Instr} (h0 : Op.ofCode (encodeFields i).op = some i.op)
    (h1 : i.op.format.unusedZero (encodeFields i) = true) (h2 : i.op.format.registersLegal (encodeFields i) = true) :
    CleanWord.Statement i := by
  rw [CleanWord.Statement, encode, fieldsOf_wordOf, Fields.check, encodeFields_zero, h0]
  simp [h1, h2]

theorem CleanWord.movi (rd : Reg) (imm : Word) : CleanWord.Statement (.movi rd imm) :=
  CleanWord.of_fields rfl rfl (by
    simp [Instr.op, Op.format, encodeFields, WordFormat.registersLegal, WordFormat.usesRd, WordFormat.usesRn,
      WordFormat.usesRm, fieldOfReg_le rd])

theorem CleanWord.movr (rd rn : Reg) : CleanWord.Statement (.movr rd rn) :=
  CleanWord.of_fields rfl rfl (by
    simp [Instr.op, Op.format, encodeFields, WordFormat.registersLegal, WordFormat.usesRd, WordFormat.usesRn,
      WordFormat.usesRm, fieldOfReg_le rd, fieldOfReg_le rn])

theorem CleanWord.cmp (rn rm : Reg) : CleanWord.Statement (.cmp rn rm) :=
  CleanWord.of_fields rfl rfl (by
    simp [Instr.op, Op.format, encodeFields, WordFormat.registersLegal, WordFormat.usesRd, WordFormat.usesRn,
      WordFormat.usesRm, fieldOfReg_le rn, fieldOfReg_le rm])

theorem CleanWord.add (rd rn rm : Reg) : CleanWord.Statement (.add rd rn rm) :=
  CleanWord.of_fields rfl rfl (by
    simp [Instr.op, Op.format, encodeFields, WordFormat.registersLegal, WordFormat.usesRd, WordFormat.usesRn,
      WordFormat.usesRm, fieldOfReg_le rd, fieldOfReg_le rn, fieldOfReg_le rm])

theorem CleanWord.sub (rd rn rm : Reg) : CleanWord.Statement (.sub rd rn rm) :=
  CleanWord.of_fields rfl rfl (by
    simp [Instr.op, Op.format, encodeFields, WordFormat.registersLegal, WordFormat.usesRd, WordFormat.usesRn,
      WordFormat.usesRm, fieldOfReg_le rd, fieldOfReg_le rn, fieldOfReg_le rm])

theorem CleanWord.mul (rd rn rm : Reg) : CleanWord.Statement (.mul rd rn rm) :=
  CleanWord.of_fields rfl rfl (by
    simp [Instr.op, Op.format, encodeFields, WordFormat.registersLegal, WordFormat.usesRd, WordFormat.usesRn,
      WordFormat.usesRm, fieldOfReg_le rd, fieldOfReg_le rn, fieldOfReg_le rm])

theorem CleanWord.div (rd rn rm : Reg) : CleanWord.Statement (.div rd rn rm) :=
  CleanWord.of_fields rfl rfl (by
    simp [Instr.op, Op.format, encodeFields, WordFormat.registersLegal, WordFormat.usesRd, WordFormat.usesRn,
      WordFormat.usesRm, fieldOfReg_le rd, fieldOfReg_le rn, fieldOfReg_le rm])

theorem CleanWord.beq (t : Index) : CleanWord.Statement (.beq t) := CleanWord.of_fields rfl rfl rfl

theorem CleanWord.blt (t : Index) : CleanWord.Statement (.blt t) := CleanWord.of_fields rfl rfl rfl

end Sys2Proof.Laws
end

