-- ==== Sys2Proof/Laws/Step.lean ====
section
/-! SUPPORT. Said once: what each instruction answers, and everything a step can do (44_sequencer R134). -/

namespace Sys2Proof.Machine

/-! ### The effect of an instruction as one state -/

/-- The next state of an instruction; `exec` answers it on every path (`exec_eq`). -/
def after (i : Instr) (s : State) : State :=
  match i with
  | .movi rd imm => (s.setReg rd imm).nextPc
  | .movr _ _ => s.nextPc
  | .cmp rn rm => (s.setFlag (compareFlag (s.reg rn) (s.reg rm))).nextPc
  | .add rd rn rm => (s.setReg rd (s.reg rn + s.reg rm)).nextPc
  | .sub rd rn rm => (s.setReg rd (s.reg rn - s.reg rm)).nextPc
  | .mul rd rn rm => (s.setReg rd (s.reg rn * s.reg rm)).nextPc
  | .div rd rn rm =>
    if s.reg rm = 0 then s.raise .divisionByZero s.pc
    else (s.setReg rd (aluDiv (s.reg rn) (s.reg rm))).nextPc
  | .beq t => s.branch (takenIfEqual s.flag) t
  | .blt t => s.branch (takenIfLessThan s.flag) t

/-- Every instruction answers a next state, on every state. -/
theorem exec_eq (i : Instr) (s : State) : exec i s = .next (after i s) := by
  cases i with
  | movi rd imm => rfl
  | movr rd rn =>
    show Host.Outcome.next ((s.setReg rn (s.reg rn)).nextPc) = _
    rw [State.setReg_reg_self]
    rfl
  | cmp rn rm => rfl
  | add rd rn rm =>
    show Host.Outcome.next ((s.setReg rd (aluAdd .wrap (s.reg rn) (s.reg rm))).nextPc) = _
    rw [aluAdd_wrap]
    rfl
  | sub rd rn rm =>
    show Host.Outcome.next ((s.setReg rd (aluSub .wrap (s.reg rn) (s.reg rm))).nextPc) = _
    rw [aluSub_wrap]
    rfl
  | mul rd rn rm =>
    show Host.Outcome.next ((s.setReg rd (aluMul .wrap (s.reg rn) (s.reg rm))).nextPc) = _
    rw [aluMul_wrap]
    rfl
  | div rd rn rm =>
    show (if s.reg rm = 0 then _ else _) = Host.Outcome.next (if s.reg rm = 0 then _ else _)
    split <;> rfl
  | beq t => rfl
  | blt t => rfl

theorem exec_next {i : Instr} {s t : State} (h : exec i s = .next t) : t = after i s := by
  rw [exec_eq] at h
  exact (Host.Outcome.next.inj h).symm

/-- No instruction touches the program or its length (R50). -/
@[simp] theorem after_prog (i : Instr) (s : State) : (after i s).prog = s.prog := by
  cases i <;> simp only [after] <;> first | rfl | (split <;> rfl) | simp

@[simp] theorem after_progLen (i : Instr) (s : State) : (after i s).progLen = s.progLen := by
  cases i <;> simp only [after] <;> first | rfl | (split <;> rfl) | simp

/-! ### One step -/

/-- Everything a step that answers a next state can be: the halt, the invalid program counter, or one instruction. -/
theorem step_next_cases {s t : State} (h : step s = .next t) :
    s.status = .running ∧
      ((s.pc = s.progLen ∧ t = s.halt) ∨
        (s.progLen < s.pc ∧ t = s.raise .invalidProgramCounter s.pc) ∨
        (s.pc < s.progLen ∧ ∃ i, s.instrAt s.pc = .ok i ∧ t = after i s)) := by
  unfold step State.pass State.runningPass at h
  cases hs : s.status with
  | halted => simp [hs] at h
  | faulted => simp [hs] at h
  | running =>
    simp only [hs] at h
    refine ⟨rfl, ?_⟩
    by_cases h1 : s.pc = s.progLen
    · simp only [h1, if_true] at h
      exact .inl ⟨h1, (Host.Outcome.next.inj h).symm⟩
    · rw [if_neg h1] at h
      by_cases h2 : s.progLen < s.pc
      · simp only [h2, if_true] at h
        exact .inr (.inl ⟨h2, (Host.Outcome.next.inj h).symm⟩)
      · rw [if_neg h2] at h
        have h3 : s.pc < s.progLen := by bv_omega
        cases hi : s.instrAt s.pc with
        | error r => simp [hi] at h
        | ok i =>
          simp only [hi] at h
          exact .inr (.inr ⟨h3, i, rfl, exec_next h⟩)

/-- The tests of the driver, forwards: halt. -/
theorem pass_halt {s : State} (hs : s.status = .running) (h : s.pc = s.progLen) : s.pass = .ends s.halt := by
  simp [State.pass, State.runningPass, hs, h]

/-- The tests of the driver, forwards: invalid program counter. -/
theorem pass_invalid {s : State} (hs : s.status = .running) (h : s.progLen < s.pc) :
    s.pass = .ends (s.raise .invalidProgramCounter s.pc) := by
  have hne : s.pc ≠ s.progLen := by bv_omega
  simp [State.pass, State.runningPass, hs, h, hne]

/-- The tests of the driver, forwards: fetch and decode. -/
theorem pass_run {s : State} {i : Instr} (hs : s.status = .running) (h : s.pc < s.progLen)
    (hi : s.instrAt s.pc = .ok i) : s.pass = .run i := by
  have hne : s.pc ≠ s.progLen := by bv_omega
  have hnl : ¬ s.progLen < s.pc := by bv_omega
  simp [State.pass, State.runningPass, hs, hne, hnl, hi]

end Sys2Proof.Machine
end

