-- ==== Sys2Proof/Laws/Run.lean ====
section
/-! SUPPORT. Runs of the host's interface, one step at a time (44_sequencer R135), and the forward form of a step. -/

namespace Sys2Proof.Machine

@[simp] theorem run_zero (s : State) : core.run 0 s = .next s := rfl

/-- A run that goes on: one step, then the rest. -/
theorem run_succ_of_next {s t : State} (k : Nat) (h : step s = .next t) : core.run (k + 1) s = core.run k t := by
  have e := Host.Core.run.eq_2 core s k
  rw [show core.step s = .next t from h] at e
  exact e

/-- A run of one step or more that answers a state took a step. -/
theorem run_succ_next {s t : State} {k : Nat} (h : core.run (k + 1) s = .next t) :
    ∃ u, step s = .next u ∧ core.run k u = .next t := by
  have e := Host.Core.run.eq_2 core s k
  cases hs : step s with
  | next u => exact ⟨u, rfl, (run_succ_of_next k hs).symm.trans h⟩
  | fault r =>
    rw [show core.step s = .fault r from hs] at e
    cases e.symm.trans h
  | refused r =>
    rw [show core.step s = .refused r from hs] at e
    cases e.symm.trans h

/-- A running machine below `LEN` executes the instruction it fetches. -/
theorem step_of_run {s : State} {i : Instr} (hs : s.status = .running) (h : s.pc < s.progLen)
    (hi : s.instrAt s.pc = .ok i) : step s = .next (after i s) := by
  rw [step, pass_run hs h hi]
  exact exec_eq i s

/-- What an instruction reads at an index depends on the store alone. -/
theorem instrAt_congr {s t : State} (h : t.prog = s.prog) (i : Index) : t.instrAt i = s.instrAt i := by
  rw [State.instrAt, State.instrAt, State.fetchWord, State.fetchWord, h]

end Sys2Proof.Machine
end

