-- ==== Sys2Proof/Tests/Slice0.lean ====
section
/-! SUPPORT. The model's own tests: the well-formedness smoke, words written out from 30_encoding, vectors of
95_test_vectors (named in each test's comment), and a witness for the hypotheses of each obligation that has some. -/

namespace Sys2Proof.Tests
open Sys2Proof.Machine

/-! ### Helpers -/

/-- The next state of an outcome, if it is one. -/
def nextOf (o : Host.Outcome State Fault Refusal) : Option State :=
  match o with
  | .next s => some s
  | .fault _ => none
  | .refused _ => none

/-- `x[1]` and `x[2]` set, the rest of the reset state. -/
def base (a b : Word) : State := (State.reset.setReg 1 a).setReg 2 b

/-- One step on a word placed where the next fetch is made. -/
def stepWord (s : State) (w : InstrWord) : Option State := nextOf (step (s.withFetchWord 128 w.toNat))

/-- The state a program starts in; the reset state for one that is refused. -/
def booted (ws : List InstrWord) : State :=
  match boot false ws with
  | .ok s => s
  | .error _ => State.reset

/-! ### Well-formedness: a term for each check, refused by it (R71) -/

theorem test_wf_zero_field : Fields.check ⟨1, 0x01, 0, 0, 0, 42⟩ = some .zeroField := by decide
theorem test_wf_opcode_zero : Fields.check ⟨0, 0x00, 0, 0, 0, 0⟩ = some .opcode := by decide
theorem test_wf_opcode_ten : Fields.check ⟨0, 0x0A, 0, 0, 0, 0⟩ = some .opcode := by decide
theorem test_wf_unused_rd : Fields.check ⟨0, 0x03, 2, 1, 1, 0⟩ = some .unusedField := by decide
theorem test_wf_unused_rn : Fields.check ⟨0, 0x01, 0, 1, 0, 42⟩ = some .unusedField := by decide
theorem test_wf_unused_rm : Fields.check ⟨0, 0x02, 1, 1, 2, 0⟩ = some .unusedField := by decide
theorem test_wf_unused_imm : Fields.check ⟨0, 0x04, 1, 2, 3, 1⟩ = some .unusedField := by decide
theorem test_wf_register_rd : Fields.check ⟨0, 0x01, 0, 0, 31, 1⟩ = some .registerField := by decide
theorem test_wf_register_rn : Fields.check ⟨0, 0x02, 0, 31, 0, 0⟩ = some .registerField := by decide
theorem test_wf_register_rm : Fields.check ⟨0, 0x07, 32, 1, 0, 0⟩ = some .registerField := by decide
theorem test_wf_accepts : Fields.check ⟨0, 0x04, 1, 2, 30, 0⟩ = none := by decide

/-! ### Decoding: one word a constructor, written out from R62 to R64 -/

theorem test_decode_movi : decode 0x00000000_0100001E_FFFFFFFFFFFFFFFF = .ok (.movi 30 0xFFFFFFFFFFFFFFFF) := by decide
theorem test_decode_movr : decode 0x00000000_02000102_0000000000000000 = .ok (.movr 2 1) := by decide
theorem test_decode_cmp : decode 0x00000000_03000200_0000000000000000 = .ok (.cmp 2 0) := by decide
theorem test_decode_add : decode 0x00000000_0401021E_0000000000000000 = .ok (.add 30 2 1) := by decide
theorem test_decode_sub : decode 0x00000000_05020100_0000000000000000 = .ok (.sub 0 1 2) := by decide
theorem test_decode_mul : decode 0x00000000_06010203_0000000000000000 = .ok (.mul 3 2 1) := by decide
theorem test_decode_div : decode 0x00000000_07030104_0000000000000000 = .ok (.div 4 1 3) := by decide
theorem test_decode_beq : decode 0x00000000_08000000_FFFFFFFFFFFFFFFF = .ok (.beq 0xFFFFFFFFFFFFFFFF) := by decide
theorem test_decode_blt : decode 0x00000000_09000000_0000000000000003 = .ok (.blt 3) := by decide

/-- V-DEC-2, 4, 5, 6, 9, 10, 11, 14. -/
theorem test_decode_illegal :
    decode 0 = .error .opcode ∧
    decode 0x00000000_0100001F_0000000000000001 = .error .registerField ∧
    decode 0x00000000_01000100_000000000000002A = .error .unusedField ∧
    decode 0x00000001_01000000_000000000000002A = .error .zeroField ∧
    decode 0x00000000_08000001_0000000000000002 = .error .unusedField ∧
    decode 0x00000000_07200100_0000000000000000 = .error .registerField ∧
    decode 0x00000000_02000102_0000000000000001 = .error .unusedField ∧
    decode 0xFFFFFFFF_FFFFFFFF_FFFFFFFFFFFFFFFF = .error .zeroField := by decide

/-- The bytes of `mov x0, #42`, least significant first (R44), with one byte left over; and an image too short. -/
theorem test_decode_bytes :
    decodeBytes [0x2A, 0, 0, 0, 0, 0, 0, 0, 0, 0, 0, 0x01, 0, 0, 0, 0, 0x77] = .ok (.movi 0 42, [0x77]) ∧
    decodeBytes [0x2A, 0, 0] = .error .truncated := by decide

theorem test_decode_table_word : decodeTableWord 128 0x00000000070000000000000000000000 = some (.div 0 0 0) := by decide

/-! ### Move -/

/-- V-MOVI-3. -/
theorem test_movi_x30 :
    (stepWord (base 0 0) 0x00000000_0100001E_FFFFFFFFFFFFFFFF).map (fun t => (t.reg 30, t.reg 0, t.pc))
      = some (0xFFFFFFFFFFFFFFFF, 0, 1) := by decide
/-- V-MOVI-4. -/
theorem test_movi_keeps_flag :
    (stepWord ((base 0 0).setFlag .lessThan) 0x00000000_01000001_0000000000000001).map (fun t => (t.reg 1, t.flag))
      = some (1, .lessThan) := by decide
/-- V-MOVR-2, this hardware. -/
theorem test_movr_source_writeback :
    (stepWord (base 7 3) 0x00000000_02000102_0000000000000000).map (fun t => (t.reg 1, t.reg 2, t.pc))
      = some (7, 3, 1) := by decide
/-- V-MOVR-2, the other policy. -/
theorem test_movr_destination_write :
    (nextOf (execMovrUnder .destinationWrite 2 1 (base 7 3))).map (fun t => (t.reg 1, t.reg 2)) = some (7, 7) := by decide

/-! ### Compare -/

/-- V-CMP-3. -/
theorem test_cmp_greater_overwrites :
    (stepWord ((base 5 3).setFlag .lessThan) 0x00000000_03020100_0000000000000000).map (fun t => (t.flag, t.pc))
      = some (.equal, 1) := by decide
/-- V-CMP-4 and V-CMP-6: the order is unsigned. -/
theorem test_cmp_unsigned :
    (stepWord (base 0 0xFFFFFFFFFFFFFFFF) 0x00000000_03020100_0000000000000000).map (·.flag) = some .lessThan ∧
    (stepWord (base 0x8000000000000000 0x7FFFFFFFFFFFFFFF) 0x00000000_03020100_0000000000000000).map (·.flag)
      = some .equal := by decide

/-! ### Arithmetic -/

/-- V-ADD-2. -/
theorem test_add_wraps :
    (stepWord (base 0xFFFFFFFFFFFFFFFF 1) 0x00000000_04020100_0000000000000000).map (·.reg 0) = some 0 := by decide
/-- V-ADD-5. -/
theorem test_add_same_register :
    (stepWord (State.reset.setReg 0 3) 0x00000000_04000000_0000000000000000).map (·.reg 0) = some 6 := by decide
/-- V-SUB-3. -/
theorem test_sub_wraps :
    (stepWord (base 3 5) 0x00000000_05020100_0000000000000000).map (·.reg 0) = some 0xFFFFFFFFFFFFFFFE := by decide
/-- V-SUB-6. -/
theorem test_sub_keeps_flag :
    (stepWord (base 4 10) 0x00000000_05020100_0000000000000000).map (fun t => (t.reg 0, t.flag))
      = some (0xFFFFFFFFFFFFFFFA, .equal) := by decide
/-- V-MUL-3. -/
theorem test_mul_low_half :
    (stepWord (base 0xFFFFFFFFFFFFFFFF 0xFFFFFFFFFFFFFFFF) 0x00000000_06020100_0000000000000000).map (·.reg 0)
      = some 1 := by decide
/-- V-MUL-6. -/
theorem test_mul_same_register :
    (stepWord (State.reset.setReg 0 5) 0x00000000_06000000_0000000000000000).map (·.reg 0) = some 25 := by decide
/-- V-DIV-7: the old divisor is read, then overwritten. -/
theorem test_div_overwrites_divisor :
    (stepWord (base 10 4) 0x00000000_07020102_0000000000000000).map (fun t => (t.reg 2, t.pc)) = some (2, 1) := by decide
/-- V-DIV-8. -/
theorem test_div_by_zero :
    (stepWord (((base 5 0).setReg 0 77).setPc 3) 0x00000000_07020100_0000000000000000).map
      (fun t => (t.status, t.fault, t.reg 0, t.pc)) = some (.faulted, ⟨.divisionByZero, 3⟩, 77, 3) := by decide
/-- P7 names what a saturating implementation would give: 2^64 - 1 for the sum and the product, and 0 below zero (R106). -/
theorem test_saturating_alternative :
    aluAdd .saturate 0xFFFFFFFFFFFFFFFF 1 = 0xFFFFFFFFFFFFFFFF ∧ aluSub .saturate 3 5 = 0 ∧
    aluMul .saturate 0x100000000 0x100000000 = 0xFFFFFFFFFFFFFFFF := by decide

/-! ### Branch -/

/-- V-BEQ-1 and V-BEQ-2. -/
theorem test_beq_both_ways :
    (stepWord (State.reset.setPc 8) 0x00000000_08000000_0000000000000002).map (·.pc) = some 2 ∧
    (stepWord ((State.reset.setPc 8).setFlag .lessThan) 0x00000000_08000000_0000000000000002).map (·.pc) = some 9 := by
  decide
/-- V-BEQ-6: no truncation; the fault comes with the next step. -/
theorem test_beq_far_target :
    (stepWord State.reset 0x00000000_08000000_FFFFFFFFFFFFFFFF).map (fun t => (t.pc, t.status))
      = some (0xFFFFFFFFFFFFFFFF, .running) ∧
    ((stepWord State.reset 0x00000000_08000000_FFFFFFFFFFFFFFFF).bind fun t => nextOf (step t)).map (·.fault)
      = some ⟨.invalidProgramCounter, 0xFFFFFFFFFFFFFFFF⟩ := by decide
/-- V-BLT-1. -/
theorem test_blt_taken :
    (stepWord ((State.reset.setPc 5).setFlag .lessThan) 0x00000000_09000000_0000000000000003).map (·.pc) = some 3 := by
  decide
/-- V-BLT-3. -/
theorem test_blt_not_taken_at_reset :
    (stepWord State.reset 0x00000000_09000000_0000000000000002).map (·.pc) = some 1 := by decide

/-! ### The driver, the Loader, the ports -/

/-- V-SEQ-1: the empty program halts at once. -/
theorem test_empty_program :
    (nextOf (step State.reset)).map (fun t => (t.status, t.pc, t.reg 30)) = some (.halted, 0, 0) := by decide
/-- V-SEQ-3. -/
theorem test_counter_beyond_length :
    (nextOf (step { State.reset with pc := 9, progLen := 4 })).map (fun t => (t.status, t.fault))
      = some (.faulted, ⟨.invalidProgramCounter, 9⟩) := by decide
/-- V-SEQ-4 and V-SEQ-5. -/
theorem test_terminal_states :
    nextOf (step { State.reset with status := .halted }) = none ∧
    nextOf (step { State.reset with status := .faulted }) = none := by decide
/-- S7 at the binary level (V-DEC-4): the program is refused before the run. -/
theorem test_boot_refuses :
    boot false [0x00000000_01000000_000000000000002A, 0x00000000_0100001F_0000000000000001]
      = .error (.illFormed 1 .registerField) := by decide
/-- D12: byte 11 of word 1 of a loaded image is its operation code. -/
theorem test_boot_image :
    ((booted [0x00000000_01000000_000000000000002A, 0x00000000_09000000_0000000000000003]).prog.read 27,
      (booted [0x00000000_01000000_000000000000002A, 0x00000000_09000000_0000000000000003]).prog.read 16) = (0x09, 3) := by
  decide
/-- R184: the ports of a faulted machine. -/
theorem test_ports_faulted :
    ((base 7 0).raise .divisionByZero 4).ports.status = 2 ∧ ((base 7 0).raise .divisionByZero 4).ports.faultKind = 1 ∧
    ((base 7 0).raise .divisionByZero 4).ports.faultIndex = 4 := by decide
/-- R154: a target above `LEN = 1` is a LoadError where the Loader validates targets; the target `LEN` is not. -/
theorem test_boot_validates_targets :
    boot true [0x00000000_08000000_0000000000000002] = .error (.targetAboveLength 0 2) ∧
    boot true [0x00000000_09000000_0000000000000001] = boot false [0x00000000_09000000_0000000000000001] := by decide

/-! ### Program text (R72 to R75) -/

/-- The worked lines of 30_encoding section 8. -/
theorem test_parse_lines :
    parseLine ['m', 'o', 'v', ' ', 'x', '0', ',', ' ', '#', '4', '2'] = .ok (.movi 0 42) ∧
    parseLine ['c', 'm', 'p', ' ', 'x', '2', ',', ' ', 'x', '0'] = .ok (.cmp 2 0) ∧
    parseLine ['s', 'u', 'b', ' ', 'x', '0', ',', ' ', 'x', '1', ',', ' ', 'x', '2'] = .ok (.sub 0 1 2) ∧
    parseLine ['b', '.', 'l', 't', ' ', '#', '3'] = .ok (.blt 3) := by decide
/-- S7 and R75: an unknown register, an unknown mnemonic, trailing garbage, a malformed line. -/
theorem test_parse_rejects :
    parseLine ['m', 'o', 'v', ' ', 'x', '3', '1', ',', ' ', '#', '1'] = .error .unknownRegister ∧
    parseLine ['n', 'o', 'p'] = .error .unknownMnemonic ∧
    parseLine ['b', '.', 'e', 'q', ' ', '#', '1', ' ', '#', '2'] = .error .trailingGarbage ∧
    parseLine ['c', 'm', 'p', ' ', 'x', '1', ' ', 'x', '2'] = .error .malformedLine := by decide
theorem test_show_line :
    showInstr (.movr 30 1) = ['m', 'o', 'v', ' ', 'x', '3', '0', ',', ' ', 'x', '1'] := by decide
/-- R72: blank lines take no index; a malformed line fails the whole load. -/
theorem test_assemble_lines :
    assemble [[], ['b', '.', 'e', 'q', ' ', '#', '0'], [], ['b', '.', 'l', 't', ' ', '#', '1']] = .ok [.beq 0, .blt 1] ∧
    assemble [['b', '.', 'e', 'q', ' ', '#', '0'], ['x']] = .error (1, .unknownMnemonic) := by decide

/-! ### Witnesses: states and operands that meet the hypotheses of each obligation, at the edges of its clauses -/

/-- `mov x0, #42` alone. -/
def oneMov : State := booted [0x00000000_01000000_000000000000002A]
/-- `b.eq #T` alone, so `LEN = 1`. -/
def oneBeq (T : Index) : State := booted [encode (.beq T)]
/-- `div x0, x1, x2` alone, over given operands. -/
def oneDiv (a b : Word) : State := ((booted [0x00000000_07020100_0000000000000000]).setReg 1 a).setReg 2 b

theorem oneMov_at : oneMov.instrAt 0 = .ok (.movi 0 42) := by decide
theorem oneMov_only {i : Index} (h : i < oneMov.progLen) : i = 0 := by
  have e : oneMov.progLen = 1 := by decide
  rw [e] at h
  bv_omega
theorem oneBeq_one_at : (oneBeq 1).instrAt 0 = .ok (.beq 1) := by decide
theorem oneBeq_one_only {i : Index} (h : i < (oneBeq 1).progLen) : i = 0 := by
  have e : (oneBeq 1).progLen = 1 := by decide
  rw [e] at h
  bv_omega

theorem test_witness_DivRoundsDown : (base 10 4).reg 2 ≠ 0 ∧ (base 0 1).reg 2 ≠ 0 ∧
    (base 1 0xFFFFFFFFFFFFFFFF).reg 2 ≠ 0 := by decide
theorem test_witness_DivByZeroTakesFault : (base 10 0).reg 2 = 0 ∧ (base 0 0).reg 2 = 0 := by decide
theorem test_witness_WrappingAluTable :
    aluAdd Config.overflowPolicy 0xFFFFFFFFFFFFFFFF 1 = 0 ∧
    aluAdd Config.overflowPolicy 0xFFFFFFFFFFFFFFFE 1 = 0xFFFFFFFFFFFFFFFF ∧
    aluSub Config.overflowPolicy 0 1 = 0xFFFFFFFFFFFFFFFF ∧ aluSub Config.overflowPolicy 1 1 = 0 := by decide
theorem test_witness_OverflowPoliciesNarrow :
    (0 : Int) ≤ 2 ^ 64 - 1 ∧ (2 ^ 64 - 1 : Int) < 2 ^ 64 ∧ narrow .saturate (2 ^ 64) = 0xFFFFFFFFFFFFFFFF ∧
    narrow .saturate (-1) = 0 ∧ narrow .wrap (2 ^ 64) = 0 := by decide
/-- Dividend below, equal to and above the divisor, and the divisor 1 (R108). -/
theorem test_witness_DivisionCaseTable :
    (5 : Word) ≠ 0 ∧ aluDiv 4 5 = 0 ∧ aluDiv 5 5 = 1 ∧ aluDiv 6 5 = 1 ∧ aluDiv 0xFFFFFFFFFFFFFFFF 1 = 0xFFFFFFFFFFFFFFFF := by
  decide
theorem test_witness_BeqTakenOnEqual : State.reset.flag = .equal ∧ (State.reset.setFlag .lessThan).flag ≠ .equal := by
  decide
theorem test_witness_BltTakenOnLessThan :
    (State.reset.setFlag .lessThan).flag = .lessThan ∧ State.reset.flag ≠ .lessThan := by decide
/-- Taken with the target below, at and above `LEN = 1`, and untaken. -/
theorem test_witness_BranchTargetCheckedNextStep :
    ((oneBeq 0).status = .running ∧ (oneBeq 0).pc < (oneBeq 0).progLen ∧ (oneBeq 0).instrAt (oneBeq 0).pc = .ok (.beq 0) ∧
      branchTarget (.beq 0) = some 0 ∧ branchTaken (oneBeq 0).flag (.beq 0) = true) ∧
    ((oneBeq 1).instrAt (oneBeq 1).pc = .ok (.beq 1) ∧ (1 : Index) = (oneBeq 1).progLen) ∧
    ((oneBeq 2).instrAt (oneBeq 2).pc = .ok (.beq 2) ∧ (oneBeq 2).progLen < (2 : Index)) ∧
    branchTaken ((oneBeq 2).setFlag .lessThan).flag (.beq 2) = false := by decide
theorem test_witness_TargetsValidated : (oneBeq 1).TargetsValidated := by
  intro i hi ins t hins ht
  rw [oneBeq_one_only hi, oneBeq_one_at] at hins
  cases hins
  cases ht
  decide
theorem test_witness_BranchBeforeAnyCompare : ∃ t, oneMov.flag = .equal ∧ step oneMov = .next t ∧
    ∀ rn rm, oneMov.instrAt oneMov.pc ≠ .ok (.cmp rn rm) := by
  refine ⟨_, rfl, rfl, fun rn rm h => ?_⟩
  rw [show oneMov.pc = 0 by decide, oneMov_at] at h
  cases h
theorem test_witness_TakenSelfBranchRepeats :
    (oneBeq 0).status = .running ∧ (oneBeq 0).pc < (oneBeq 0).progLen ∧ (oneBeq 0).instrAt (oneBeq 0).pc = .ok (.beq 0) ∧
    branchTarget (.beq 0) = some (oneBeq 0).pc ∧ branchTaken (oneBeq 0).flag (.beq 0) = true := by decide
theorem test_witness_HaltsAtProgramLength :
    State.reset.status = .running ∧ State.reset.pc = State.reset.progLen ∧ State.reset.progLen = 0 ∧
    (nextOf (step State.reset)).map (·.status) = some .halted := by decide
/-- One above the halt position, the first value that faults. -/
theorem test_witness_CounterBeyondLengthFaults :
    (oneMov.setPc 2).status = .running ∧ (oneMov.setPc 2).progLen < (oneMov.setPc 2).pc := by decide
theorem test_witness_StepRunsDecodedInstruction :
    oneMov.status = .running ∧ oneMov.pc < oneMov.progLen ∧
    decodeBytes (oneMov.prog.readBytes (16 * oneMov.pc.toNat) 16) = .ok (.movi 0 42, []) := by decide
theorem test_witness_IllFormedFetchRefused :
    ({ State.reset with progLen := 1 } : State).status = .running ∧
    ({ State.reset with progLen := 1 } : State).pc < ({ State.reset with progLen := 1 } : State).progLen ∧
    decode (({ State.reset with progLen := 1 } : State).fetchWord 0) = .error .opcode := by decide
theorem test_witness_TerminalStatesHaveNoStep :
    (oneMov.halt).status ≠ .running ∧ (oneMov.halt).status = .halted ∧
    (oneMov.raise .divisionByZero 0).status ≠ .running ∧ (oneMov.raise .divisionByZero 0).status = .faulted := by decide
/-- A step that halts and a step that does not. -/
theorem test_witness_SuccessExactlyAtLength :
    (∃ t, step State.reset = .next t ∧ State.reset.pc = State.reset.progLen) ∧
    ∃ t, step oneMov = .next t ∧ oneMov.pc ≠ oneMov.progLen := by
  exact ⟨⟨_, rfl, by decide⟩, ⟨_, rfl, by decide⟩⟩
theorem oneMov_wellFormed : oneMov.ProgramWellFormed := fun i hi => ⟨.movi 0 42, by rw [oneMov_only hi]; exact oneMov_at⟩
theorem test_witness_StepRefinesReference :
    oneMov.status = .running ∧ oneMov.ProgramWellFormed ∧ (oneMov.halt).status ≠ .running :=
  ⟨by decide, oneMov_wellFormed, by decide⟩
theorem test_witness_CounterStaysInRange :
    ∃ t, (oneBeq 1).TargetsValidated ∧ (oneBeq 1).PcInRange ∧ step (oneBeq 1) = .next t :=
  ⟨_, test_witness_TargetsValidated, by unfold State.PcInRange; decide, rfl⟩
theorem test_witness_OutOfRangeOnlyAfterTakenBranch :
    ∃ t, (oneBeq 2).PcInRange ∧ step (oneBeq 2) = .next t ∧ ¬ t.PcInRange := by
  refine ⟨_, ?_, rfl, ?_⟩ <;> unfold State.PcInRange <;> decide
theorem test_witness_IncrementNeverOverflows : ∃ t, oneMov.pc < oneMov.progLen ∧
    oneMov.instrAt oneMov.pc = .ok (.movi 0 42) ∧ branchTaken oneMov.flag (.movi 0 42) = false ∧ step oneMov = .next t ∧
    t.status = .running := by
  exact ⟨_, by decide, by decide, by decide, rfl, by decide⟩
/-- A step that faults, from a state that meets the invariant. -/
theorem test_witness_StepKeepsStateInvariant : ∃ t, (oneDiv 5 0).Inv ∧ step (oneDiv 5 0) = .next t ∧ t.status = .faulted := by
  refine ⟨_, ⟨?_, ?_, ?_⟩, rfl, by decide⟩
  · decide
  · unfold State.FaultRecordOk
    decide
  · unfold State.HaltedAtLength
    decide
theorem test_witness_ResetAndBootMeetStateInvariant :
    oneMov.prog.wf ∧ boot false [0x00000000_01000000_000000000000002A] = .ok oneMov := by decide
theorem test_witness_BranchFreeProgramEnds :
    oneMov.status = .running ∧ oneMov.PcInRange ∧ oneMov.ProgramWellFormed ∧ oneMov.BranchFree := by
  refine ⟨by decide, by unfold State.PcInRange; decide, oneMov_wellFormed, fun i hi ins hins => ?_⟩
  rw [oneMov_only hi, oneMov_at] at hins
  cases hins
  rfl
theorem test_witness_ProgramIsImmutable : ∃ t, core.run 2 oneMov = .next t := ⟨_, rfl⟩
theorem test_witness_OnlyMoveAndArithmeticWriteRegisters : ∃ t, step oneMov = .next t ∧ t.reg 0 ≠ oneMov.reg 0 :=
  ⟨_, rfl, by decide⟩
theorem test_witness_OnlyCompareWritesFlag :
    ∃ t, step ((base 3 5).withFetchWord 128 0x00000000_03020100_0000000000000000) = .next t ∧
      t.flag ≠ ((base 3 5).withFetchWord 128 0x00000000_03020100_0000000000000000).flag := ⟨_, rfl, by decide⟩
theorem test_witness_OnlyBranchReadsFlag : ∃ t, branchTarget (.cmp 1 2) = none ∧ exec (.cmp 1 2) (base 3 5) = .next t :=
  ⟨_, rfl, rfl⟩
/-- Two states that differ in the fault record and in a byte above the program. -/
theorem test_witness_StepReadsNothingElse : ∃ u t, oneMov.Agree u ∧ oneMov.SameProgram u ∧ step oneMov = .next t ∧
    u.fault ≠ oneMov.fault ∧ u.prog ≠ oneMov.prog := by
  refine ⟨{ oneMov with fault := ⟨.divisionByZero, 9⟩, prog := oneMov.prog.write 16 1 }, _, ⟨fun _ => rfl, rfl, rfl, rfl⟩,
    ⟨rfl, fun i hi => ?_⟩, rfl, by decide, by decide⟩
  rw [oneMov_only hi]
  decide
theorem test_witness_RestartEstablishesResetState :
    (oneMov.setReg 5 7).prog = oneMov.prog ∧ (oneMov.setReg 5 7).progLen = oneMov.progLen ∧ oneMov.setReg 5 7 ≠ oneMov := by
  decide
/-- The next fetch at an index above the program, and at the last index there is. -/
theorem test_witness_PlacedWordRunsNext :
    (oneMov.setPc 7).prog.wf ∧ decode 0x00000000_08000000_0000000000000003 = .ok (.beq 3) ∧
    ((oneMov.setPc 7).withFetchWord 128 0x00000000_08000000_0000000000000003).pc = 7 ∧
    ((oneMov.setPc 0xFFFFFFFFFFFFFFFF).withFetchWord 128 0x00000000_08000000_0000000000000003).pc = 0 := by decide
theorem test_witness_DivisionByZeroRaisedOnlyByDiv :
    ∃ t, (oneDiv 5 0).fault.kind = .none ∧ step (oneDiv 5 0) = .next t ∧ t.fault.kind = .divisionByZero :=
  ⟨_, by decide, rfl, by decide⟩
/-- Both faults. -/
theorem test_witness_FaultsArePrecise :
    (∃ t, step (oneDiv 5 0) = .next t ∧ t.status = .faulted) ∧ ∃ t, step (oneMov.setPc 2) = .next t ∧ t.status = .faulted :=
  ⟨⟨_, rfl, by decide⟩, ⟨_, rfl, by decide⟩⟩
theorem test_witness_FaultPortsAgreeWithStatus : State.reset.FaultRecordOk ∧ (oneMov.raise .divisionByZero 0).FaultRecordOk := by
  unfold State.FaultRecordOk
  decide
/-- After a DIV fault `pc` is below `LEN`, and at `LEN` nothing is presented. -/
theorem test_witness_FetchIndexPresentedBelowLength :
    (nextOf (step (oneDiv 5 0))).map (fun t => (t.status, t.ports.fetchIndex)) = some (.faulted, some 0) ∧
    (oneMov.status = .running ∧ oneMov.ports.fetchIndex = some 0 ∧ decode (oneMov.fetchWord 0) = .ok (.movi 0 42)) ∧
    ((oneMov.setPc 1).status = .running ∧ (oneMov.setPc 1).ports.fetchIndex = none) := by decide
theorem test_witness_EncodeDecodeRoundTrip : decode 0x00000000_07020102_0000000000000000 = .ok (.div 2 1 2) := by decide
theorem test_witness_DecoderAgreesWithMaskTable :
    Op.cmp.matches 0x00000000_031E0000_0000000000000000 = true ∧ Op.cmp.matches 0x00000000_031F0000_0000000000000000 = false := by
  decide
theorem test_witness_DecoderAgreesWithFormatCheck :
    (fieldsOf 0x00000000_04010203_0000000000000001).check = some .unusedField ∧
    decode 0x00000000_04010203_0000000000000001 = .error .unusedField := by decide
theorem test_witness_LoadedImageIsLittleEndian :
    boot false [0x00000000_01000000_000000000000002A] = .ok oneMov ∧ oneMov.prog.read 0 = 0x2A ∧ oneMov.prog.read 15 = 0 := by
  decide
theorem test_witness_BootRefusesOrDeliversWholeProgram :
    boot false [0x00000000_01000000_000000000000002A] = .ok oneMov ∧ boot false [0] = .error (.illFormed 0 .opcode) ∧
    boot true [0x00000000_01000000_000000000000002A] = .ok oneMov ∧ boot true [0] = .error (.illFormed 0 .opcode) ∧
    boot true [encode (.beq 2)] = .error (.targetAboveLength 0 2) := by decide
/-- The target at `LEN = 1`, which both Loaders deliver, and the one above it, which one of them does. -/
theorem test_witness_ValidatingLoaderExcludesInvalidCounter :
    (boot true [encode (.beq 1)] = .ok (oneBeq 1) ∧ (oneBeq 1).TargetsValidated ∧ ∃ t, core.run 2 (oneBeq 1) = .next t) ∧
    boot false [encode (.beq 2)] = .ok (oneBeq 2) ∧ ¬ (oneBeq 2).TargetsValidated :=
  ⟨⟨by decide, test_witness_TargetsValidated, _, rfl⟩, by decide, fun h =>
    absurd (h 0 (by decide) (.beq 2) 2 (by decide) rfl) (by decide)⟩
theorem test_witness_LoadedTextIsTheProgram :
    bootText true [['b', '.', 'e', 'q', ' ', '#', '1']] = .ok (oneBeq 1) ∧
    bootText true [['b', '.', 'e', 'q', ' ', '#', '2']] = .error (.image (.targetAboveLength 0 2)) := by decide
theorem test_witness_RegisterTokens :
    readReg ['x', '3', '0'] = some 30 ∧ readReg ['x', '3', '1'] = none ∧ readReg ['x', '0', '1'] = none ∧
    readReg ['X', '1'] = none := by decide

end Sys2Proof.Tests
end

/-! ## What a step reads (10_state R34)

Every operation a step is made of takes agreeing states to agreeing states, none touches the program, and the record a
fault writes is made of its kind and `pc` alone. -/

namespace Sys2Proof.Machine

/-! ### Agreement is kept by every operation over the state -/

theorem State.Agree.setReg {s u : State} (h : s.Agree u) (r : Reg) (v : Word) :
    (s.setReg r v).Agree (u.setReg r v) := by
  obtain ⟨hreg, hflag, hpc, hstatus⟩ := h
  exact ⟨fun q => by simp [State.reg_setReg, hreg], hflag, hpc, hstatus⟩

theorem State.Agree.setFlag {s u : State} (h : s.Agree u) (f : Flag) : (s.setFlag f).Agree (u.setFlag f) := by
  obtain ⟨hreg, -, hpc, hstatus⟩ := h
  exact ⟨hreg, rfl, hpc, hstatus⟩

theorem State.Agree.nextPc {s u : State} (h : s.Agree u) : s.nextPc.Agree u.nextPc := by
  obtain ⟨hreg, hflag, hpc, hstatus⟩ := h
  exact ⟨hreg, hflag, by simp [hpc], hstatus⟩

theorem State.Agree.branch {s u : State} (h : s.Agree u) (b : Bool) (t : Index) :
    (s.branch b t).Agree (u.branch b t) := by
  obtain ⟨hreg, hflag, hpc, hstatus⟩ := h
  exact ⟨by simpa using hreg, by simpa using hflag, by simp [hpc], by simpa using hstatus⟩

/-- The records raised may differ: agreement says nothing of the fault record. -/
theorem State.Agree.raise {s u : State} (h : s.Agree u) (k k' : FaultKind) (i j : Index) :
    (s.raise k i).Agree (u.raise k' j) := by
  obtain ⟨hreg, hflag, hpc, -⟩ := h
  exact ⟨hreg, hflag, hpc, rfl⟩

theorem State.Agree.halt {s u : State} (h : s.Agree u) : s.halt.Agree u.halt := by
  obtain ⟨hreg, hflag, hpc, -⟩ := h
  exact ⟨hreg, hflag, hpc, rfl⟩

/-! ### The program held -/

/-- Updates that leave the store and the length alone keep two states at the same program. -/
theorem State.SameProgram.of_unchanged {s u t v : State} (h : s.SameProgram u) (ht : t.prog = s.prog)
    (htl : t.progLen = s.progLen) (hv : v.prog = u.prog) (hvl : v.progLen = u.progLen) : t.SameProgram v := by
  simpa only [State.SameProgram, State.fetchWord, ht, htl, hv, hvl] using h

/-- Below `LEN`, states that hold the same program fetch the same instruction. -/
theorem State.SameProgram.instrAt_eq {s u : State} (h : s.SameProgram u) {i : Index} (hi : i < s.progLen) :
    u.instrAt i = s.instrAt i := by
  rw [State.instrAt, State.instrAt, h.2 i hi]

/-! ### One instruction -/

/-- An instruction reads registers, flag and `pc` only. -/
theorem State.Agree.after {s u : State} (h : s.Agree u) (i : Instr) : (after i s).Agree (after i u) := by
  have ⟨hreg, hflag, _, _⟩ := h
  cases i with
  | movi rd imm => exact (h.setReg rd imm).nextPc
  | movr rd rn => exact h.nextPc
  | cmp rn rm =>
    simp only [Machine.after, hreg]
    exact (h.setFlag _).nextPc
  | add rd rn rm | sub rd rn rm | mul rd rn rm =>
    simp only [Machine.after, hreg]
    exact (h.setReg rd _).nextPc
  | div rd rn rm =>
    simp only [Machine.after, hreg]
    split
    · exact h.raise _ _ _ _
    · exact (h.setReg rd _).nextPc
  | beq t | blt t =>
    simp only [Machine.after, hflag]
    exact h.branch _ t

/-- The only fault an instruction takes is DIV's, and its record is made of the kind and `pc` alone (R104, R151). -/
theorem after_fault_of_faulted {i : Instr} {s : State} (hs : s.status = .running)
    (hf : (after i s).status = .faulted) : (after i s).fault = ⟨.divisionByZero, s.pc⟩ := by
  cases i with
  | div rd rn rm =>
    simp only [after] at hf ⊢
    split at hf
    next hz => rw [if_pos hz, State.raise_fault]
    next => simp [hs] at hf
  | _ => simp [after, hs] at hf

end Sys2Proof.Machine

section
open Sys2Proof Sys2Proof.Machine

/-- Settles O35, along the three things a step can be: both states pass the same test of the driver, and the operation
that follows keeps their agreement and their program. -/
theorem stepReadsNothingElse : Obligations.StepReadsNothingElse := by
  intro s u t ha hp h
  have ⟨_, _, hpc, hstatus⟩ := ha
  have hlen : u.progLen = s.progLen := hp.1
  obtain ⟨hrun, hcases⟩ := step_next_cases h
  have hrun' : u.status = .running := hstatus.trans hrun
  obtain ⟨hat, rfl⟩ | ⟨habove, rfl⟩ | ⟨hbelow, i, hi, rfl⟩ := hcases
  · refine ⟨u.halt, ?_, ha.halt, hp.of_unchanged rfl rfl rfl rfl, nofun⟩
    rw [step, pass_halt hrun' (by rw [hpc, hlen, hat])]
  · refine ⟨u.raise .invalidProgramCounter u.pc, ?_, ha.raise _ _ _ _, hp.of_unchanged rfl rfl rfl rfl,
      fun _ => by simp [hpc]⟩
    rw [step, pass_invalid hrun' (by rwa [hpc, hlen])]
  · have hagree := ha.after i
    have ⟨_, _, _, hstatus'⟩ := hagree
    refine ⟨after i u, ?_, hagree, hp.of_unchanged (by simp) (by simp) (by simp) (by simp), fun hf => ?_⟩
    · exact step_of_run hrun' (by rwa [hpc, hlen]) (by rw [hpc, hp.instrAt_eq hbelow, hi])
    · rw [after_fault_of_faulted hrun hf, after_fault_of_faulted hrun' (hstatus'.trans hf), hpc]

end

/-! ## What a run keeps (20_memory R50)

The induction over the steps of a run is made once, for any predicate a step keeps; the program is the first such thing. -/

namespace Sys2Proof.Machine

/-- What every step keeps, every run keeps. -/
theorem run_keeps {P : State → Prop} (hstep : ∀ {u v : State}, step u = .next v → P u → P v) {k : Nat} {s t : State}
    (h : core.run k s = .next t) (hs : P s) : P t := by
  induction k generalizing s with
  | zero =>
    cases (run_zero s).symm.trans h
    exact hs
  | succ k ih =>
    obtain ⟨u, hu, hrest⟩ := run_succ_next h
    exact ih hrest (hstep hu hs)

/-- No pass of the driver writes the store or its length: not the halt, not the fault, not an instruction. -/
theorem step_keeps_program {s t : State} (h : step s = .next t) : t.prog = s.prog ∧ t.progLen = s.progLen := by
  obtain ⟨-, ⟨-, rfl⟩ | ⟨-, rfl⟩ | ⟨-, i, -, rfl⟩⟩ := step_next_cases h
  · exact ⟨rfl, rfl⟩
  · exact ⟨rfl, rfl⟩
  · exact ⟨after_prog i s, after_progLen i s⟩

theorem run_keeps_program {s t : State} {k : Nat} (h : core.run k s = .next t) :
    t.prog = s.prog ∧ t.progLen = s.progLen := by
  refine run_keeps (P := fun u => u.prog = s.prog ∧ u.progLen = s.progLen) (fun hstep ⟨hprog, hlen⟩ => ?_) h ⟨rfl, rfl⟩
  obtain ⟨hprog', hlen'⟩ := step_keeps_program hstep
  exact ⟨hprog'.trans hprog, hlen'.trans hlen⟩

end Sys2Proof.Machine

section
open Sys2Proof Sys2Proof.Machine

/-- Settles O31: the store and its length are fields that no step of the run writes, and a byte read or an instruction
fetched depends on the store alone. -/
theorem programIsImmutable : Obligations.ProgramIsImmutable := by
  intro k s t h
  obtain ⟨hprog, hlen⟩ := run_keeps_program h
  exact ⟨hlen, fun a => congrArg (·.read a) hprog, instrAt_congr hprog⟩

end

/-! ## A register write and the increment (40_move R80)

MOVI and every arithmetic instruction that takes no fault end in the same two updates, so their frame is stated for any
value written. -/

namespace Sys2Proof.Machine

/-- `x[r] <- v; pc <- pc + 1` leaves every other register, the flag and everything outside as they were. -/
theorem State.setReg_nextPc_frame (s : State) (r : Reg) (v : Word) :
    (∀ q, q ≠ r → (s.setReg r v).nextPc.reg q = s.reg q) ∧ (s.setReg r v).nextPc.pc = s.pc + 1 ∧
      (s.setReg r v).nextPc.flag = s.flag ∧ s.SameOutside (s.setReg r v).nextPc := by
  have hother : ∀ q, q ≠ r → (s.setReg r v).nextPc.reg q = s.reg q := fun q hq => by
    rw [State.nextPc_reg, State.reg_setReg_ne s v hq]
  exact ⟨hother, rfl, rfl, rfl, rfl, rfl, fun _ => rfl⟩

end Sys2Proof.Machine

section
open Sys2Proof Sys2Proof.Machine

/-- Settles O1: the word is that of `encodeFields` put together, and the next state is the register write and the increment
of `exec_eq`. -/
theorem moviWritesImmediate : Obligations.MoviWritesImmediate := by
  intro rd imm s
  have hword : encode (.movi rd imm) = 0#32 ++ 0x01#8 ++ 0#8 ++ 0#8 ++ BitVec.ofNat 8 rd.val ++ imm := rfl
  have hwritten : (s.setReg rd imm).nextPc.reg rd = imm := by simp
  exact ⟨hword, (s.setReg rd imm).nextPc, exec_eq (.movi rd imm) s, hwritten, s.setReg_nextPc_frame rd imm⟩

end

/-! ## The flag and the branches (43_branch R120, R121, R123)

Only CMP writes the flag, and a branch reads it through its predicate alone: both branches are the redirector, which keeps
everything but `pc`. -/

namespace Sys2Proof.Machine

/-! ### The predicates of the two branches -/

@[simp] theorem takenIfEqual_iff (f : Flag) : takenIfEqual f = true ↔ f = .equal := beq_iff_eq

@[simp] theorem takenIfLessThan_iff (f : Flag) : takenIfLessThan f = true ↔ f = .lessThan := beq_iff_eq

/-- The two flag values are exclusive and there is no third (R121). -/
theorem takenIfEqual_eq_not_takenIfLessThan (f : Flag) : takenIfEqual f = !takenIfLessThan f := by
  cases f <;> rfl

/-! ### The redirector -/

/-- A branch, taken or not, leaves every register, the flag and everything outside as they were. -/
theorem State.branch_frame (s : State) (b : Bool) (T : Index) :
    (∀ q, (s.branch b T).reg q = s.reg q) ∧ (s.branch b T).flag = s.flag ∧ s.SameOutside (s.branch b T) :=
  ⟨s.branch_reg b T, s.branch_flag b T, s.branch_status b T, s.branch_fault b T, s.branch_progLen b T,
    fun a => congrArg (·.read a) (s.branch_prog b T)⟩

/-- Where `pc` goes, for a predicate that holds exactly of the flag value `f`. -/
theorem State.branch_pc_of_iff (s : State) {b : Bool} {f : Flag} (hb : b = true ↔ s.flag = f) (T : Index) :
    (s.flag = f → (s.branch b T).pc = T) ∧ (s.flag ≠ f → (s.branch b T).pc = s.pc + 1) := by
  rw [State.branch_pc]
  exact ⟨fun h => if_pos (hb.2 h), fun h => if_neg (mt hb.1 h)⟩

/-! ### What keeps the flag -/

/-- No instruction but CMP writes the flag, a DIV that faults included. -/
theorem after_flag_of_not_cmp {i : Instr} (hi : ∀ rn rm, i ≠ .cmp rn rm) (s : State) : (after i s).flag = s.flag := by
  cases i with
  | cmp rn rm => exact absurd rfl (hi rn rm)
  | div rd rn rm =>
    simp only [after]
    split <;> rfl
  | beq T | blt T => exact s.branch_flag _ T
  | movi | movr | add | sub | mul => rfl

/-- A step that executes no CMP keeps the flag; the two that execute nothing, the halt and the invalid program counter, are
among them. -/
theorem step_flag_of_not_cmp {s t : State} (h : step s = .next t)
    (hcmp : s.pc < s.progLen → ∀ rn rm, s.instrAt s.pc ≠ .ok (.cmp rn rm)) : t.flag = s.flag := by
  obtain ⟨-, ⟨-, rfl⟩ | ⟨-, rfl⟩ | ⟨hbelow, i, hi, rfl⟩⟩ := step_next_cases h
  · exact s.halt_flag
  · exact s.raise_flag _ _
  · refine after_flag_of_not_cmp (fun rn rm hne => ?_) s
    exact hcmp hbelow rn rm (hi.trans (congrArg _ hne))

end Sys2Proof.Machine

section
open Sys2Proof Sys2Proof.Machine

/-- Settles O16: a restart sets the flag of Config, every step but a CMP's keeps it, and with it the predicate of B.EQ holds
and that of B.LT does not. -/
theorem branchBeforeAnyCompare : Obligations.BranchBeforeAnyCompare := by
  refine ⟨State.restart_flag, fun s t hs h hcmp => (step_flag_of_not_cmp h hcmp).trans hs, fun s T hs => ?_⟩
  have hbeq := (s.branch_pc_of_iff (takenIfEqual_iff s.flag) T).1 hs
  have hblt := (s.branch_pc_of_iff (takenIfLessThan_iff s.flag) T).2 (by simp [hs])
  exact ⟨⟨_, exec_eq (.beq T) s, hbeq⟩, _, exec_eq (.blt T) s, hblt⟩

/-- Settles O13: the redirector under the predicate of B.EQ. -/
theorem beqTakenOnEqual : Obligations.BeqTakenOnEqual := by
  intro T s
  have hword : encode (.beq T) = 0#32 ++ 0x08#8 ++ 0#8 ++ 0#8 ++ 0#8 ++ T := rfl
  obtain ⟨htaken, huntaken⟩ := s.branch_pc_of_iff (takenIfEqual_iff s.flag) T
  exact ⟨hword, _, exec_eq (.beq T) s, htaken, huntaken, s.branch_frame _ T⟩

/-- Settles O14: the redirector under the predicate of B.LT, which is the negation of B.EQ's. -/
theorem bltTakenOnLessThan : Obligations.BltTakenOnLessThan := by
  intro T s
  have hword : encode (.blt T) = 0#32 ++ 0x09#8 ++ 0#8 ++ 0#8 ++ 0#8 ++ T := rfl
  obtain ⟨htaken, huntaken⟩ := s.branch_pc_of_iff (takenIfLessThan_iff s.flag) T
  exact ⟨hword, ⟨_, exec_eq (.blt T) s, htaken, huntaken, s.branch_frame _ T⟩,
    takenIfEqual_eq_not_takenIfLessThan s.flag⟩

end

/-! ## The end of a run (44_sequencer R131, R138, R143)

A run ends well only by the driver's halt test: no instruction halts, and the other end of a step is a fault. -/

namespace Sys2Proof.Machine

/-! ### The result in a terminal state -/

theorem State.result_of_halted {s : State} (h : s.status = .halted) : s.result = some (.snapshot s.regs) := by
  rw [State.result, h]

theorem State.result_of_faulted {s : State} (h : s.status = .faulted) : s.result = some (.report s.fault) := by
  rw [State.result, h]

/-! ### The halt -/

/-- The halt test of a running driver succeeds: the step is the halt. -/
theorem step_at_length {s : State} (hs : s.status = .running) (h : s.pc = s.progLen) : step s = .next s.halt := by
  rw [step, pass_halt hs h]

/-- An instruction leaves the status as it was, except a DIV that faults; none of them halts (R131). -/
theorem after_status_ne_halted {s : State} (hs : s.status = .running) (i : Instr) : (after i s).status ≠ .halted := by
  cases i with
  | div rd rn rm =>
    simp only [after]
    split <;> simp [hs]
  | _ => simp [after, hs]

/-- A step answers a halted state exactly when it was taken with `pc = LEN`. -/
theorem step_halted_iff {s t : State} (h : step s = .next t) : t.status = .halted ↔ s.pc = s.progLen := by
  obtain ⟨hrun, ⟨hat, rfl⟩ | ⟨habove, rfl⟩ | ⟨hbelow, i, -, rfl⟩⟩ := step_next_cases h
  · exact iff_of_true s.halt_status hat
  · exact iff_of_false (by simp) (BitVec.ne_of_lt habove).symm
  · exact iff_of_false (after_status_ne_halted hrun i) (BitVec.ne_of_lt hbelow)

/-! ### No successor -/

theorem step_ne_next_of_not_running {s : State} (hs : s.status ≠ .running) (t : State) : step s ≠ .next t := fun h =>
  hs (step_next_cases h).1

end Sys2Proof.Machine

section
open Sys2Proof Sys2Proof.Machine

/-- Settles O18: at `pc = LEN` the step is the halt, whose frame its field lemmas give; no other step halts; a restart
with the empty program stands at `pc = LEN = 0`. -/
theorem haltsAtProgramLength : Obligations.HaltsAtProgramLength := by
  refine ⟨fun s hs hat => ?_, fun s t h => (step_halted_iff h).1, fun s hempty => ?_⟩
  · exact ⟨s.halt, step_at_length hs hat, rfl, fun _ => rfl, rfl, hat, rfl, rfl, fun _ => rfl⟩
  · have hat : s.restart.pc = s.restart.progLen := hempty.symm
    exact ⟨s.restart.halt, step_at_length s.restart_status hat, rfl, s.reg_restart⟩

/-- Settles O23: only the halt ends the run well, and it leaves the registers to be read as they were. -/
theorem successExactlyAtLength : Obligations.SuccessExactlyAtLength := by
  intro s t h
  refine ⟨step_halted_iff h, fun hat => ?_⟩
  have hrun : s.status = .running := (step_next_cases h).1
  have ht : t = s.halt := Host.Outcome.next.inj (h.symm.trans (step_at_length hrun hat))
  rw [ht, State.result_of_halted s.halt_status, State.halt_regs]

/-- Settles O22: a step that answers a state was taken by a running machine, and a run of one step or more begins with
such a step. -/
theorem terminalStatesHaveNoStep : Obligations.TerminalStatesHaveNoStep := by
  intro s hs
  refine ⟨step_ne_next_of_not_running hs, fun k t h => ?_, State.result_of_halted, State.result_of_faulted⟩
  obtain ⟨u, hu, -⟩ := run_succ_next h
  exact step_ne_next_of_not_running hs u hu

end

/-! ## The division fault (60_exceptions R152)

Of the three things a step can be, the halt writes no record, the invalid program counter writes another kind, and an
instruction writes one only as a DIV whose divisor is 0. -/

namespace Sys2Proof.Machine

/-- The condition of R152, on the state a step starts from: a DIV is executed and its divisor register holds 0. -/
def State.DividesByZero (s : State) : Prop :=
  s.pc < s.progLen ∧ ∃ rd rn rm, s.instrAt s.pc = .ok (.div rd rn rm) ∧ s.reg rm = 0

/-- An instruction leaves the fault record as it was, unless it is a DIV by zero. -/
theorem after_fault_eq_or_div_zero (i : Instr) (s : State) :
    (after i s).fault = s.fault ∨ ∃ rd rn rm, i = .div rd rn rm ∧ s.reg rm = 0 := by
  cases i with
  | div rd rn rm =>
    by_cases hz : s.reg rm = 0
    · exact .inr ⟨rd, rn, rm, rfl, hz⟩
    · exact .inl (by rw [after, if_neg hz]; rfl)
  | beq T | blt T => exact .inl (s.branch_fault _ T)
  | movi | movr | cmp | add | sub | mul => exact .inl rfl

/-- Under the condition, the whole step is the raise of the fault with the DIV's own index. -/
theorem State.DividesByZero.step_next {s t : State} (hz : s.DividesByZero) (h : step s = .next t) :
    t = s.raise .divisionByZero s.pc := by
  obtain ⟨hbelow, rd, rn, rm, hi, hrm⟩ := hz
  have hrun : s.status = .running := (step_next_cases h).1
  have ht : t = after (.div rd rn rm) s := Host.Outcome.next.inj (h.symm.trans (step_of_run hrun hbelow hi))
  rw [ht, after, if_pos hrm]

/-- A step that turns the record's kind into DivisionByZero was taken under the condition. -/
theorem dividesByZero_of_step {s t : State} (hs : s.fault.kind ≠ .divisionByZero) (h : step s = .next t)
    (ht : t.fault.kind = .divisionByZero) : s.DividesByZero := by
  obtain ⟨-, ⟨-, rfl⟩ | ⟨-, rfl⟩ | ⟨hbelow, i, hi, rfl⟩⟩ := step_next_cases h
  · exact absurd ht hs
  · cases ht
  · obtain hkept | ⟨rd, rn, rm, rfl, hrm⟩ := after_fault_eq_or_div_zero i s
    · exact absurd (hkept ▸ ht) hs
    · exact ⟨hbelow, rd, rn, rm, hi, hrm⟩

end Sys2Proof.Machine

section
open Sys2Proof Sys2Proof.Machine

/-- Settles O38: the kind appears only under the condition of R152, and under it the step is the raise, which writes status
and record alone. -/
theorem divisionByZeroRaisedOnlyByDiv : Obligations.DivisionByZeroRaisedOnlyByDiv := by
  intro s t hnone h
  have hcond : t.fault.kind = .divisionByZero → s.DividesByZero := dividesByZero_of_step (by simp [hnone]) h
  refine ⟨⟨hcond, fun hz => ?_⟩, fun hk => ?_⟩
  · rw [State.DividesByZero.step_next hz h, State.raise_fault]
  · rw [(hcond hk).step_next h]
    exact ⟨rfl, rfl, fun _ => rfl, rfl, rfl, rfl, fun _ => rfl⟩

end

/-! ## Reset (70_reset_and_hazards R180)

The reset state is given field by field under Laws; here, that the program is all a restart takes from the state it is made
of. -/

namespace Sys2Proof.Machine

/-- Nothing but the program survives a restart. -/
theorem State.restart_eq_of_program {s u : State} (hprog : u.prog = s.prog) (hlen : u.progLen = s.progLen) :
    u.restart = s.restart := by
  rw [State.restart, State.restart, hprog, hlen]

end Sys2Proof.Machine

section
open Sys2Proof Sys2Proof.Machine

/-- Settles O36: the fields of a restart one by one; the program determines the whole of it; and a step that answers a state
was taken by a running machine. -/
theorem restartEstablishesResetState : Obligations.RestartEstablishesResetState := by
  intro s
  have hstore : ∀ a, s.restart.prog.read a = s.prog.read a := fun a => congrArg (·.read a) s.restart_prog
  exact ⟨s.reg_restart, s.restart_flag, s.restart_pc, s.restart_status, s.restart_fault, s.restart_progLen, hstore,
    fun _ => State.restart_eq_of_program, fun _ h => (step_next_cases h).1⟩

end

/-! ## The three things a running step does, forwards (44_sequencer R131 to R133)

The halt is `step_at_length`; here the invalid program counter, the fetch of an ill-formed word, and the instruction. -/

namespace Sys2Proof.Machine

/-- A running machine beyond `LEN` takes the invalid program counter fault. -/
theorem step_beyond_length {s : State} (hs : s.status = .running) (h : s.progLen < s.pc) :
    step s = .next (s.raise .invalidProgramCounter s.pc) := by
  rw [step, pass_invalid hs h]

/-- A running machine below `LEN` does what the instruction it fetches does, and nothing around it. -/
theorem step_eq_exec {s : State} {i : Instr} (hs : s.status = .running) (h : s.pc < s.progLen)
    (hi : s.instrAt s.pc = .ok i) : step s = exec i s := by
  rw [step, pass_run hs h hi]

/-- A running machine below `LEN` has no step on a word that does not decode. -/
theorem step_of_illFormed {s : State} {r : IllFormed} (hs : s.status = .running) (h : s.pc < s.progLen)
    (hr : s.instrAt s.pc = .error r) : step s = .refused (.illFormedWord r) := by
  have hat : s.pc ≠ s.progLen := BitVec.ne_of_lt h
  have habove : ¬ s.progLen < s.pc := BitVec.lt_asymm h
  have hpass : s.pass = .refuse (.illFormedWord r) := by
    simp only [State.pass, hs, State.runningPass, if_neg hat, if_neg habove, hr]
  rw [step, hpass]

/-- Where the 16 bytes at `pc` decode, they are the instruction at `pc` (R44). -/
theorem instrAt_of_decodeBytes {s : State} {i : Instr} {rest : List Byte}
    (h : decodeBytes (s.prog.readBytes (16 * s.pc.toNat) 16) = .ok (i, rest)) : s.instrAt s.pc = .ok i := by
  have hlen : (s.prog.readBytes (16 * s.pc.toNat) 16).length = 16 := rfl
  have hword : BitVec.ofNat 128 (leNat ((s.prog.readBytes (16 * s.pc.toNat) 16).take 16)) = s.fetchWord s.pc := by
    rw [List.take_of_length_le hlen.le]
    rfl
  unfold decodeBytes at h
  rw [if_neg (by omega), hword] at h
  rw [State.instrAt]
  split at h
  next j hj =>
    cases h
    exact hj
  next => cases h

end Sys2Proof.Machine

section
open Sys2Proof Sys2Proof.Machine

/-- Settles O19: the raise writes status and record alone, and the driver's test comes before any fetch. -/
theorem counterBeyondLengthFaults : Obligations.CounterBeyondLengthFaults := by
  intro s hs habove
  exact ⟨_, step_beyond_length hs habove, rfl, rfl, fun _ => rfl, rfl, rfl, rfl, fun _ => rfl⟩

/-- Settles O20: the bytes at `16 * pc` are the word the step fetches. -/
theorem stepRunsDecodedInstruction : Obligations.StepRunsDecodedInstruction := by
  intro s i rest hs hbelow hbytes
  exact step_eq_exec hs hbelow (instrAt_of_decodeBytes hbytes)

/-- Settles O21: the driver's last test is the decoder's. -/
theorem illFormedFetchRefused : Obligations.IllFormedFetchRefused := fun _ _ => step_of_illFormed

end

/-! ## Where an instruction leaves the machine (44_sequencer R136, R140)

An instruction ends in one of three ways: the division fault, a taken branch, or completion with the increment. What the
statements on `pc`, the status and the fault record need of an instruction is which of the three it is. -/

namespace Sys2Proof.Machine

/-- A branch is the redirector under its own predicate. -/
theorem after_of_branchTarget {i : Instr} {T : Index} (h : branchTarget i = some T) (s : State) :
    after i s = s.branch (branchTaken s.flag i) T := by
  cases i with
  | beq U | blt U =>
    cases h
    rfl
  | _ => cases h

/-- An instruction completes without a jump: `pc` takes the increment, and status and record stay. -/
def FallsThrough (i : Instr) (s : State) : Prop :=
  branchTaken s.flag i = false ∧ (after i s).pc = s.pc + 1 ∧ (after i s).status = s.status ∧
    (after i s).fault = s.fault

/-- The three ways an instruction ends. -/
theorem after_cases (i : Instr) (s : State) :
    ((∃ rd rn rm, i = .div rd rn rm ∧ s.reg rm = 0) ∧ after i s = s.raise .divisionByZero s.pc) ∨
      (∃ T, branchTarget i = some T ∧ branchTaken s.flag i = true ∧ after i s = s.setPc T) ∨
      FallsThrough i s := by
  cases hT : branchTarget i with
  | some T =>
    have hafter := after_of_branchTarget hT s
    cases htaken : branchTaken s.flag i with
    | true =>
      rw [htaken] at hafter
      exact .inr (.inl ⟨T, rfl, rfl, hafter⟩)
    | false =>
      rw [htaken] at hafter
      exact .inr (.inr ⟨htaken, by simp [hafter], by simp [hafter], by simp [hafter]⟩)
  | none =>
    cases i with
    | beq T | blt T => cases hT
    | div rd rn rm =>
      by_cases hz : s.reg rm = 0
      · exact .inl ⟨⟨rd, rn, rm, rfl, hz⟩, if_pos hz⟩
      · have hdone : after (.div rd rn rm) s = (s.setReg rd (aluDiv (s.reg rn) (s.reg rm))).nextPc := if_neg hz
        exact .inr (.inr (by simp [FallsThrough, hdone, branchTaken]))
    | movi | movr | cmp | add | sub | mul => exact .inr (.inr ⟨rfl, rfl, rfl, rfl⟩)

/-- Below `LEN` the increment neither overflows nor passes `LEN` (R136). -/
theorem toNat_succ_of_lt {pc len : Index} (h : pc < len) :
    (pc + 1).toNat = pc.toNat + 1 ∧ (pc + 1).toNat ≤ len.toNat := by
  bv_omega

theorem succ_le_of_lt {pc len : Index} (h : pc < len) : pc + 1 ≤ len := by
  bv_omega

/-! ### What the program alone decides -/

theorem State.TargetsValidated.of_program {s t : State} (hs : s.TargetsValidated) (hprog : t.prog = s.prog)
    (hlen : t.progLen = s.progLen) : t.TargetsValidated := by
  intro i hi ins T hins hT
  rw [hlen] at hi ⊢
  exact hs i hi ins T ((instrAt_congr hprog i).symm.trans hins) hT

theorem State.ProgramWellFormed.of_program {s t : State} (hs : s.ProgramWellFormed) (hprog : t.prog = s.prog)
    (hlen : t.progLen = s.progLen) : t.ProgramWellFormed := by
  intro i hi
  rw [instrAt_congr hprog]
  exact hs i (hlen ▸ hi)

theorem State.BranchFree.of_program {s t : State} (hs : s.BranchFree) (hprog : t.prog = s.prog)
    (hlen : t.progLen = s.progLen) : t.BranchFree := by
  intro i hi ins hins
  rw [instrAt_congr hprog] at hins
  exact hs i (hlen ▸ hi) ins hins

/-! ### `pc` against `LEN` -/

/-- A step that leads out of range from within it is a taken branch with such a target (R140). -/
theorem taken_of_step_out_of_range {s t : State} (hin : s.PcInRange) (h : step s = .next t) (hout : ¬ t.PcInRange) :
    ∃ ins T, s.pc < s.progLen ∧ s.instrAt s.pc = .ok ins ∧ branchTarget ins = some T ∧
      branchTaken s.flag ins = true ∧ t = s.setPc T := by
  obtain ⟨-, ⟨-, rfl⟩ | ⟨-, rfl⟩ | ⟨hbelow, i, hi, rfl⟩⟩ := step_next_cases h
  · exact absurd hin hout
  · exact absurd hin hout
  · obtain ⟨-, hafter⟩ | ⟨T, hT, htaken, hafter⟩ | ⟨-, hpc, -⟩ := after_cases i s
    · rw [hafter] at hout
      exact absurd hin hout
    · exact ⟨i, T, hbelow, hi, hT, htaken, hafter⟩
    · rw [State.PcInRange, hpc, after_progLen] at hout
      exact absurd (succ_le_of_lt hbelow) hout

/-- With validated targets a step stays in range (R140). -/
theorem step_keeps_pcInRange {s t : State} (hv : s.TargetsValidated) (hin : s.PcInRange) (h : step s = .next t) :
    t.PcInRange := by
  by_contra hout
  obtain ⟨ins, T, hbelow, hi, hT, -, rfl⟩ := taken_of_step_out_of_range hin h hout
  exact hout (hv s.pc hbelow ins T hi hT)

theorem State.not_pcInRange {s : State} : ¬ s.PcInRange ↔ s.progLen < s.pc := by
  rw [State.PcInRange, BitVec.not_le]

/-! ### A faulting step -/

/-- A step that answers a faulted state is a raise at `pc`, of the kind that `pc` against `LEN` settles (R151). -/
theorem raise_of_step_faulted {s t : State} (h : step s = .next t) (hf : t.status = .faulted) :
    (s.progLen < s.pc ∧ t = s.raise .invalidProgramCounter s.pc) ∨
      (s.pc < s.progLen ∧ t = s.raise .divisionByZero s.pc) := by
  obtain ⟨hrun, ⟨-, rfl⟩ | ⟨habove, rfl⟩ | ⟨hbelow, i, -, rfl⟩⟩ := step_next_cases h
  · cases hf
  · exact .inl ⟨habove, rfl⟩
  · obtain ⟨-, hafter⟩ | ⟨T, -, -, hafter⟩ | ⟨-, -, hstatus, -⟩ := after_cases i s
    · exact .inr ⟨hbelow, hafter⟩
    · rw [hafter, State.setPc_status, hrun] at hf
      cases hf
    · rw [hstatus, hrun] at hf
      cases hf

end Sys2Proof.Machine

section
open Sys2Proof Sys2Proof.Machine

/-- Settles O25: only a taken branch could lead out of range, and its target is validated; the invalid counter is raised
out of range only. -/
theorem counterStaysInRange : Obligations.CounterStaysInRange := by
  intro s t hv hin h
  obtain ⟨hprog, hlen⟩ := step_keeps_program h
  refine ⟨hv.of_program hprog hlen, step_keeps_pcInRange hv hin h, fun hf => ?_⟩
  obtain ⟨habove, -⟩ | ⟨-, rfl⟩ := raise_of_step_faulted h hf
  · exact absurd hin (State.not_pcInRange.2 habove)
  · simp

/-- Settles O26: the one way out of range, and the driver's second test in the state it leads to. -/
theorem outOfRangeOnlyAfterTakenBranch : Obligations.OutOfRangeOnlyAfterTakenBranch := by
  intro s t hin h hout
  obtain ⟨ins, T, -, hi, hT, htaken, rfl⟩ := taken_of_step_out_of_range hin h hout
  have hrun : (s.setPc T).status = .running := (step_next_cases h).1
  have habove : s.progLen < T := State.not_pcInRange.1 hout
  exact ⟨ins, T, hi, hT, htaken, rfl, habove, hrun, _, step_beyond_length hrun habove, rfl, rfl⟩

/-- Settles O27: an instruction that neither faults nor is a taken branch completes with the increment. -/
theorem incrementNeverOverflows : Obligations.IncrementNeverOverflows := by
  intro s t ins hbelow hi huntaken h ht
  have hrun : s.status = .running := (step_next_cases h).1
  obtain rfl : after ins s = t := Host.Outcome.next.inj ((step_of_run hrun hbelow hi).symm.trans h)
  obtain ⟨-, hafter⟩ | ⟨T, -, htaken, -⟩ | ⟨-, hpc, -⟩ := after_cases ins s
  · rw [hafter] at ht
    cases ht
  · rw [huntaken] at htaken
    cases htaken
  · rw [hpc]
    exact toNat_succ_of_lt hbelow

/-- Settles O39: either fault is a raise at `pc`, which writes status and record alone. -/
theorem faultsArePrecise : Obligations.FaultsArePrecise := by
  intro s t h hf
  obtain ⟨habove, rfl⟩ | ⟨hbelow, rfl⟩ := raise_of_step_faulted h hf
  · exact ⟨fun _ => rfl, rfl, rfl, rfl, rfl, rfl, (BitVec.ne_of_lt habove).symm, iff_of_true rfl habove,
      iff_of_false (by simp) (BitVec.lt_asymm habove)⟩
  · exact ⟨fun _ => rfl, rfl, rfl, rfl, rfl, rfl, BitVec.ne_of_lt hbelow,
      iff_of_false (by simp) (BitVec.lt_asymm hbelow), iff_of_true rfl hbelow⟩

/-- Settles O15: the branch is the redirector, and each row of the table is one of the driver's three tests on the state it
leads to. -/
theorem branchTargetCheckedNextStep : Obligations.BranchTargetCheckedNextStep := by
  intro s ins T hs hbelow hi hT
  have hafter := after_of_branchTarget hT s
  have hstep : step s = .next (s.branch (branchTaken s.flag ins) T) := hafter ▸ step_of_run hs hbelow hi
  refine ⟨_, hstep, by simp [hs], by simp, fun huntaken => by simp [huntaken], fun htaken => ?_,
    fun hv => hv s.pc hbelow ins T hi hT⟩
  rw [htaken]
  refine ⟨rfl, fun hT j hj => step_eq_exec hs hT hj, fun hT => ?_, fun hT => ?_⟩
  · exact ⟨_, step_at_length (s := s.setPc T) hs hT, rfl, fun _ => rfl⟩
  · exact ⟨_, step_beyond_length (s := s.setPc T) hs hT, rfl, rfl⟩

/-- Settles O17: the redirector writes `pc` with the value it has, so the step answers the state it was taken in. -/
theorem takenSelfBranchRepeats : Obligations.TakenSelfBranchRepeats := by
  intro s ins hs hbelow hi hT htaken k
  have hsame : after ins s = s := by
    rw [after_of_branchTarget hT, htaken]
    rfl
  have hstep : step s = .next s := (step_of_run hs hbelow hi).trans (congrArg _ hsame)
  induction k with
  | zero => exact run_zero s
  | succ k ih => rw [run_succ_of_next k hstep, ih]

end

/-! ## The invariant of the state (10_state R31, 44_sequencer R131, 60_exceptions R160) -/

namespace Sys2Proof.Machine

theorem State.faultRecordOk_of_not_faulted {s : State} (h : s.status ≠ .faulted) :
    s.FaultRecordOk ↔ s.fault = FaultRecord.clear := by
  rw [State.FaultRecordOk, if_neg h]

theorem State.faultRecordOk_of_faulted {s : State} (h : s.status = .faulted) :
    s.FaultRecordOk ↔ s.fault.kind ≠ .none ∧ s.fault.index = s.pc := by
  rw [State.FaultRecordOk, if_pos h]

/-- A fault raised at `pc` agrees with the status it sets. -/
theorem State.faultRecordOk_raise (s : State) {k : FaultKind} (hk : k ≠ .none) : (s.raise k s.pc).FaultRecordOk :=
  (State.faultRecordOk_of_faulted rfl).2 ⟨hk, rfl⟩

/-- A step that does not fault leaves the record as it was. -/
theorem step_fault_of_not_faulted {s t : State} (h : step s = .next t) (hf : t.status ≠ .faulted) :
    t.fault = s.fault := by
  obtain ⟨-, ⟨-, rfl⟩ | ⟨-, rfl⟩ | ⟨-, i, -, rfl⟩⟩ := step_next_cases h
  · rfl
  · exact absurd rfl hf
  · obtain ⟨-, hafter⟩ | ⟨T, -, -, hafter⟩ | ⟨-, -, -, hfault⟩ := after_cases i s
    · exact absurd (hafter ▸ rfl) hf
    · rw [hafter, State.setPc_fault]
    · exact hfault

theorem step_keeps_faultRecordOk {s t : State} (hs : s.FaultRecordOk) (h : step s = .next t) : t.FaultRecordOk := by
  have hrun : s.status ≠ .faulted := by simp [(step_next_cases h).1]
  by_cases hf : t.status = .faulted
  · obtain ⟨-, rfl⟩ | ⟨-, rfl⟩ := raise_of_step_faulted h hf
    · exact s.faultRecordOk_raise (by simp)
    · exact s.faultRecordOk_raise (by simp)
  · have hclear : s.fault = FaultRecord.clear := (State.faultRecordOk_of_not_faulted hrun).1 hs
    exact (State.faultRecordOk_of_not_faulted hf).2 ((step_fault_of_not_faulted h hf).trans hclear)

/-- A state that a step answers stands at `LEN` if it is halted. -/
theorem step_haltedAtLength {s t : State} (h : step s = .next t) : t.HaltedAtLength := by
  intro hhalted
  have hat : s.pc = s.progLen := (step_halted_iff h).1 hhalted
  have ht : t = s.halt := Host.Outcome.next.inj (h.symm.trans (step_at_length (step_next_cases h).1 hat))
  rw [ht]
  exact hat

/-- What a restart sets agrees, so the invariant rests on the store alone. -/
theorem State.restart_inv {s : State} (h : s.prog.wf) : s.restart.Inv :=
  ⟨h, (State.faultRecordOk_of_not_faulted (by simp)).2 rfl, nofun⟩

end Sys2Proof.Machine

section
open Sys2Proof Sys2Proof.Machine

/-- Settles O28: no step writes the store, every step keeps the record in agreement, and only the halt halts. -/
theorem stepKeepsStateInvariant : Obligations.StepKeepsStateInvariant := by
  rintro s t ⟨hwf, hrecord, -⟩ h
  have hprog : t.prog = s.prog := (step_keeps_program h).1
  exact ⟨hprog ▸ hwf, step_keeps_faultRecordOk hrecord h, step_haltedAtLength h⟩

/-- Settles O29: all three are restarts of a state whose store is in canonical form. -/
theorem resetAndBootMeetStateInvariant : Obligations.ResetAndBootMeetStateInvariant := by
  refine ⟨State.restart_inv (s := State.reset) State.reset_wf, fun s => State.restart_inv, fun v ws s h => ?_⟩
  obtain ⟨-, rfl⟩ := (boot_eq_ok v ws s).1 h
  exact State.restart_inv (s := loadedState ws) (loadedState_wf ws)

end

/-! ## The output ports (70_reset_and_hazards R184) -/

namespace Sys2Proof.Machine

theorem statusCode_injective {a b : Status} (h : statusCode a = statusCode b) : a = b := by
  revert h
  cases a <;> cases b <;> decide

@[simp] theorem faultKindCode_eq_zero (k : FaultKind) : faultKindCode k = 0 ↔ k = .none := by
  cases k <;> decide

@[simp] theorem statusCode_eq_two (a : Status) : statusCode a = 2 ↔ a = .faulted := by
  cases a <;> decide

theorem State.ports_fetchIndex (s : State) : s.ports.fetchIndex = if s.pc < s.progLen then some s.pc else none := rfl

/-- The fetch port carries `pc`, and only below `LEN`. -/
theorem State.ports_fetchIndex_eq_some (s : State) (i : Index) :
    s.ports.fetchIndex = some i ↔ i = s.pc ∧ s.pc < s.progLen := by
  rw [State.ports_fetchIndex]
  split
  next hbelow => exact ⟨fun h => ⟨(Option.some.inj h).symm, hbelow⟩, fun h => congrArg some h.1.symm⟩
  next hbelow => exact iff_of_false nofun fun h => hbelow h.2

theorem State.ports_fetchIndex_eq_none (s : State) : s.ports.fetchIndex = none ↔ ¬ s.pc < s.progLen := by
  rw [State.ports_fetchIndex, ite_eq_right_iff]
  exact forall_congr' fun _ => iff_of_false nofun id

end Sys2Proof.Machine

section
open Sys2Proof Sys2Proof.Machine

/-- Settles O40: the codes separate the kinds and the statuses, so the ports say of the record what `FaultRecordOk` says. -/
theorem faultPortsAgreeWithStatus : Obligations.FaultPortsAgreeWithStatus := by
  refine ⟨fun s hs => ?_, fun s u => statusCode_injective⟩
  have hkind : s.ports.faultKind = 0 ↔ s.fault.kind = .none := faultKindCode_eq_zero _
  have hstatus : s.ports.status = 2 ↔ s.status = .faulted := statusCode_eq_two _
  rw [hkind, ne_eq, hstatus]
  by_cases hf : s.status = .faulted
  · obtain ⟨hne, hindex⟩ := (State.faultRecordOk_of_faulted hf).1 hs
    exact ⟨iff_of_false hne (not_not.2 hf), absurd hf, fun _ => hindex⟩
  · have hclear := (State.faultRecordOk_of_not_faulted hf).1 hs
    exact ⟨iff_of_true (by rw [hclear]; rfl) hf, fun _ => congrArg FaultRecord.index hclear, fun h => absurd h hf⟩

/-- Settles O51: with `pc` on the port the step runs the word there; without it `pc` is at or beyond `LEN`, where the step
halts or faults. -/
theorem fetchIndexPresentedBelowLength : Obligations.FetchIndexPresentedBelowLength := by
  intro s
  refine ⟨s.ports_fetchIndex_eq_some, fun hs i hport j hj => ?_, fun hs hport => ?_⟩
  · obtain ⟨rfl, hbelow⟩ := (s.ports_fetchIndex_eq_some i).1 hport
    exact step_eq_exec hs hbelow hj
  · have hbelow : ¬ s.pc < s.progLen := s.ports_fetchIndex_eq_none.1 hport
    by_cases hat : s.pc = s.progLen
    · exact ⟨_, step_at_length hs hat, by simp⟩
    · have habove : s.progLen < s.pc := by bv_omega
      exact ⟨_, step_beyond_length hs habove, by simp⟩

end

/-! ## The ALU of this hardware (42_arithmetic R105 to R108) -/

namespace Sys2Proof.Machine

/-! ### Under the configured policy the results are those of 64-bit words -/

@[simp] theorem aluAdd_config (a b : Word) : aluAdd Config.overflowPolicy a b = a + b := aluAdd_wrap a b

@[simp] theorem aluSub_config (a b : Word) : aluSub Config.overflowPolicy a b = a - b := aluSub_wrap a b

@[simp] theorem aluMul_config (a b : Word) : aluMul Config.overflowPolicy a b = a * b := aluMul_wrap a b

/-! ### The two policies -/

/-- In range, `wrap` keeps the value. -/
theorem narrow_wrap_toNat_of_inRange {v : Int} (h0 : 0 ≤ v) (h1 : v < 2 ^ 64) : ((narrow .wrap v).toNat : Int) = v := by
  rw [narrow_wrap_toNat, Int.emod_eq_of_lt h0 h1]

/-- In range, `saturate` is `wrap`. -/
theorem narrow_saturate_of_inRange {v : Int} (h0 : 0 ≤ v) (h1 : v < 2 ^ 64) : narrow .saturate v = narrow .wrap v := by
  have hneg : ¬ v < 0 := by omega
  have hbig : ¬ (2 ^ 64 : Int) ≤ v := by omega
  exact (if_neg hneg).trans (if_neg hbig)

theorem narrow_saturate_of_neg {v : Int} (h : v < 0) : narrow .saturate v = 0 := if_pos h

theorem narrow_saturate_of_large {v : Int} (h : 2 ^ 64 ≤ v) : narrow .saturate v = BitVec.allOnes 64 := by
  have hneg : ¬ v < 0 := by omega
  exact (if_neg hneg).trans (if_pos h)

theorem narrow_saturate_toNat (v : Int) : ((narrow .saturate v).toNat : Int) = max 0 (min v (2 ^ 64 - 1)) := by
  by_cases h0 : v < 0
  · have hzero : ((0 : Word).toNat : Int) = 0 := rfl
    rw [narrow_saturate_of_neg h0, hzero]
    omega
  by_cases h1 : 2 ^ 64 ≤ v
  · rw [narrow_saturate_of_large h1, BitVec.toNat_allOnes]
    omega
  · have hkept := narrow_wrap_toNat_of_inRange (Int.not_lt.1 h0) (Int.not_le.1 h1)
    rw [narrow_saturate_of_inRange (Int.not_lt.1 h0) (Int.not_le.1 h1)]
    omega

/-! ### Division -/

theorem toNat_pos_of_ne_zero {b : Word} (h : b ≠ 0) : 0 < b.toNat := by
  bv_omega

/-- The quotient is the greatest number whose product with the divisor does not exceed the dividend (R103). -/
theorem aluDiv_bounds {a b : Word} (h : b ≠ 0) :
    (aluDiv a b).toNat * b.toNat ≤ a.toNat ∧ a.toNat < ((aluDiv a b).toNat + 1) * b.toNat := by
  rw [aluDiv_toNat, Nat.succ_mul]
  exact ⟨Nat.div_mul_le_self _ _, Nat.lt_div_mul_add (toNat_pos_of_ne_zero h)⟩

end Sys2Proof.Machine

section
open Sys2Proof Sys2Proof.Machine

/-- Settles O10: the ALU computes with 64-bit words, whose numbers wrap once at most in a sum or a difference. -/
theorem wrappingAluTable : Obligations.WrappingAluTable := by
  intro a b
  simp only [aluAdd_config, aluSub_config, aluMul_config]
  refine ⟨?_, ?_, BitVec.toNat_mul a b, BitVec.add_comm a b, BitVec.mul_comm a b, BitVec.sub_add_cancel a b⟩
  · rw [BitVec.toNat_add]
    split <;> omega
  · rw [BitVec.toNat_sub]
    split <;> omega

/-- Settles O11. -/
theorem overflowPoliciesNarrow : Obligations.OverflowPoliciesNarrow := fun v =>
  ⟨narrow_wrap_toNat v, narrow_saturate_toNat v, fun h0 h1 => (narrow_saturate_of_inRange h0 h1).symm⟩

/-- Settles O12: each row is a fact about the quotient of natural numbers. -/
theorem divisionCaseTable : Obligations.DivisionCaseTable := by
  intro a b hb
  have hpos : 0 < b.toNat := toNat_pos_of_ne_zero hb
  obtain ⟨hle, hlt⟩ := aluDiv_bounds (a := a) hb
  rw [Nat.succ_mul] at hlt
  refine ⟨?_, by omega, hle, fun h => ?_, ?_, fun h => ?_, ?_⟩
  · rw [aluDiv_toNat]
    exact Nat.div_le_self _ _
  · exact BitVec.eq_of_toNat_eq (by rw [aluDiv_toNat, Nat.div_eq_of_lt h]; rfl)
  · rintro rfl
    exact BitVec.eq_of_toNat_eq (by rw [aluDiv_toNat, Nat.div_self hpos]; rfl)
  · rw [aluDiv_toNat]
    exact Nat.div_pos h.le hpos
  · rintro rfl
    exact BitVec.eq_of_toNat_eq (by rw [aluDiv_toNat]; exact Nat.div_one _)

end

/-! ## The instructions that are no branch (40_move, 41_compare, 42_arithmetic) -/

namespace Sys2Proof.Machine

/-- The increment alone leaves everything but `pc` as it was. -/
theorem State.nextPc_frame (s : State) :
    (∀ q, s.nextPc.reg q = s.reg q) ∧ s.nextPc.pc = s.pc + 1 ∧ s.nextPc.flag = s.flag ∧ s.SameOutside s.nextPc :=
  ⟨fun _ => rfl, rfl, rfl, rfl, rfl, rfl, fun _ => rfl⟩

/-- A flag write and the increment leave every register and everything outside as they were. -/
theorem State.setFlag_nextPc_frame (s : State) (f : Flag) :
    (∀ q, (s.setFlag f).nextPc.reg q = s.reg q) ∧ (s.setFlag f).nextPc.pc = s.pc + 1 ∧
      s.SameOutside (s.setFlag f).nextPc :=
  ⟨fun _ => rfl, rfl, rfl, rfl, rfl, fun _ => rfl⟩

theorem State.reg_setReg_nextPc_self (s : State) (r : Reg) (v : Word) : (s.setReg r v).nextPc.reg r = v := by simp

end Sys2Proof.Machine

section
open Sys2Proof Sys2Proof.Machine

/-- Settles O2: the value goes back into the source, so the increment is all that is left of MOVR. -/
theorem movrChangesOnlyPc : Obligations.MovrChangesOnlyPc := by
  intro rd rn s
  have hword : encode (.movr rd rn) =
      0#32 ++ 0x02#8 ++ 0#8 ++ BitVec.ofNat 8 rn.val ++ BitVec.ofNat 8 rd.val ++ 0#64 := rfl
  exact ⟨hword, s.nextPc, exec_eq (.movr rd rn) s, s.nextPc_frame⟩

/-- Settles O3: under one policy the register write changes nothing, under the other it is a write to the destination. -/
theorem movrUnderEitherPolicy : Obligations.MovrUnderEitherPolicy := by
  intro rd rn s
  refine ⟨rfl, fun p => ⟨(s.moveReg p rd rn).nextPc, rfl, ?_⟩⟩
  cases p with
  | sourceWriteback =>
    have hsame : s.moveReg .sourceWriteback rd rn = s := s.setReg_reg_self rn
    obtain ⟨-, hframe⟩ := s.nextPc_frame
    rw [hsame]
    exact ⟨fun q => by simp, hframe⟩
  | destinationWrite =>
    obtain ⟨-, hframe⟩ := s.setReg_nextPc_frame rd (s.reg rn)
    exact ⟨fun q => by simp [State.moveReg, State.reg_setReg], hframe⟩

/-- Settles O4: `compareFlag` is the unsigned order on every execution, and the flag and `pc` are all CMP writes. -/
theorem cmpSetsFlagUnsigned : Obligations.CmpSetsFlagUnsigned := by
  intro rn rm s
  have hword : encode (.cmp rn rm) =
      0#32 ++ 0x03#8 ++ BitVec.ofNat 8 rm.val ++ BitVec.ofNat 8 rn.val ++ 0#8 ++ 0#64 := rfl
  exact ⟨hword, _, exec_eq (.cmp rn rm) s, rfl, s.setFlag_nextPc_frame _⟩

/-- Settles O5. -/
theorem addWrapsAround : Obligations.AddWrapsAround := by
  intro rd rn rm s
  refine ⟨_, exec_eq (.add rd rn rm) s, ?_, s.setReg_nextPc_frame rd (s.reg rn + s.reg rm)⟩
  rw [after, s.reg_setReg_nextPc_self, BitVec.toNat_add]

/-- Settles O6: the difference of words is the narrowed true difference. -/
theorem subWrapsAround : Obligations.SubWrapsAround := by
  intro rd rn rm s
  refine ⟨_, exec_eq (.sub rd rn rm) s, ?_, s.setReg_nextPc_frame rd (s.reg rn - s.reg rm)⟩
  rw [after, s.reg_setReg_nextPc_self, ← aluSub_wrap, aluSub, narrow_wrap_toNat]

/-- Settles O7. -/
theorem mulKeepsLowHalf : Obligations.MulKeepsLowHalf := by
  intro rd rn rm s
  refine ⟨_, exec_eq (.mul rd rn rm) s, ?_, s.setReg_nextPc_frame rd (s.reg rn * s.reg rm)⟩
  rw [after, s.reg_setReg_nextPc_self, BitVec.toNat_mul]

/-- Settles O8: the quotient of the ALU, by its two bounds. -/
theorem divRoundsDown : Obligations.DivRoundsDown := by
  intro rd rn rm s hz
  have hexec : exec (.div rd rn rm) s = .next ((s.setReg rd (aluDiv (s.reg rn) (s.reg rm))).nextPc) :=
    (exec_eq (.div rd rn rm) s).trans (congrArg _ (if_neg hz))
  obtain ⟨hle, hlt⟩ := aluDiv_bounds (a := s.reg rn) hz
  refine ⟨_, hexec, ?_, ?_, s.setReg_nextPc_frame rd _⟩
  · rwa [s.reg_setReg_nextPc_self]
  · rwa [s.reg_setReg_nextPc_self]

/-- Settles O9: the raise at `pc` writes status and record alone. -/
theorem divByZeroTakesFault : Obligations.DivByZeroTakesFault := by
  intro rd rn rm s hz
  have hexec : exec (.div rd rn rm) s = .next (s.raise .divisionByZero s.pc) :=
    (exec_eq (.div rd rn rm) s).trans (congrArg _ (if_pos hz))
  exact ⟨_, hexec, rfl, rfl, fun _ => rfl, rfl, rfl, rfl, fun _ => rfl⟩

end

/-! ## Who writes the registers, who writes the flag, and who reads it (10_state sections 1 and 2) -/

namespace Sys2Proof.Machine

/-- A register that a register write and the increment change is the one written. -/
theorem State.eq_of_setReg_nextPc_ne {s : State} {r q : Reg} {v : Word} (h : (s.setReg r v).nextPc.reg q ≠ s.reg q) :
    q = r := by
  by_contra hne
  exact h (s.reg_setReg_ne v hne)

/-- A register that an instruction changes is the destination of a MOVI, an ADD, a SUB, a MUL, or a DIV that takes no
fault. -/
theorem writes_of_after_reg_ne {i : Instr} {s : State} {q : Reg} (h : (after i s).reg q ≠ s.reg q) :
    (∃ imm, i = .movi q imm) ∨ (∃ rn rm, i = .add q rn rm) ∨ (∃ rn rm, i = .sub q rn rm) ∨
      (∃ rn rm, i = .mul q rn rm) ∨ ∃ rn rm, i = .div q rn rm ∧ s.reg rm ≠ 0 := by
  cases i with
  | movi rd imm =>
    obtain rfl := State.eq_of_setReg_nextPc_ne h
    exact .inl ⟨imm, rfl⟩
  | add rd rn rm =>
    obtain rfl := State.eq_of_setReg_nextPc_ne h
    exact .inr (.inl ⟨rn, rm, rfl⟩)
  | sub rd rn rm =>
    obtain rfl := State.eq_of_setReg_nextPc_ne h
    exact .inr (.inr (.inl ⟨rn, rm, rfl⟩))
  | mul rd rn rm =>
    obtain rfl := State.eq_of_setReg_nextPc_ne h
    exact .inr (.inr (.inr (.inl ⟨rn, rm, rfl⟩)))
  | div rd rn rm =>
    by_cases hz : s.reg rm = 0
    · rw [after, if_pos hz] at h
      exact absurd rfl h
    · rw [after, if_neg hz] at h
      obtain rfl := State.eq_of_setReg_nextPc_ne h
      exact .inr (.inr (.inr (.inr ⟨rn, rm, rfl, hz⟩)))
  | beq T | blt T => exact absurd (s.branch_reg _ T q) h
  | movr | cmp => exact absurd rfl h

/-- The flag's value changes nothing but the flag of what an instruction other than a branch answers. -/
theorem after_setFlag {i : Instr} (hi : branchTarget i = none) (s : State) (f : Flag) :
    ∃ g, after i (s.setFlag f) = (after i s).setFlag g := by
  cases i with
  | beq T | blt T => cases hi
  | cmp rn rm => exact ⟨compareFlag (s.reg rn) (s.reg rm), rfl⟩
  | div rd rn rm =>
    refine ⟨f, ?_⟩
    by_cases hz : s.reg rm = 0
    · have hz' : (s.setFlag f).reg rm = 0 := hz
      rw [after, if_pos hz', after, if_pos hz]
      rfl
    · have hz' : (s.setFlag f).reg rm ≠ 0 := hz
      rw [after, if_neg hz', after, if_neg hz]
      rfl
  | movi | movr | add | sub | mul => exact ⟨f, rfl⟩

end Sys2Proof.Machine

section
open Sys2Proof Sys2Proof.Machine

/-- Settles O32: the two steps that execute nothing write no register, and an instruction writes its destination alone. -/
theorem onlyMoveAndArithmeticWriteRegisters : Obligations.OnlyMoveAndArithmeticWriteRegisters := by
  intro s t q h hne
  obtain ⟨-, ⟨-, rfl⟩ | ⟨-, rfl⟩ | ⟨hbelow, i, hi, rfl⟩⟩ := step_next_cases h
  · exact absurd (s.halt_reg q) hne
  · exact absurd (s.raise_reg _ _ q) hne
  · refine ⟨hbelow, ?_⟩
    rw [hi]
    simpa only [Except.ok.injEq] using writes_of_after_reg_ne hne

/-- Settles O33: a step that executes no CMP keeps the flag. -/
theorem onlyCompareWritesFlag : Obligations.OnlyCompareWritesFlag := by
  intro s t h hne
  have hcmp : s.pc < s.progLen ∧ ∃ rn rm, s.instrAt s.pc = .ok (.cmp rn rm) := by
    by_contra hno
    exact hne (step_flag_of_not_cmp h fun hbelow rn rm hi => hno ⟨hbelow, rn, rm, hi⟩)
  obtain ⟨hbelow, rn, rm, hi⟩ := hcmp
  have hrun : s.status = .running := (step_next_cases h).1
  have ht : t = after (.cmp rn rm) s := Host.Outcome.next.inj (h.symm.trans (step_of_run hrun hbelow hi))
  exact ⟨hbelow, rn, rm, hi, congrArg State.flag ht⟩

/-- Settles O34: the two next states differ in the flag alone. -/
theorem onlyBranchReadsFlag : Obligations.OnlyBranchReadsFlag := by
  intro i s t f hi h
  obtain rfl := exec_next h
  obtain ⟨g, hg⟩ := after_setFlag hi s f
  have hexec : exec i (s.setFlag f) = .next ((after i s).setFlag g) := (exec_eq i _).trans (congrArg _ hg)
  exact ⟨_, hexec, fun _ => rfl, rfl, rfl, rfl, rfl, rfl⟩

end

/-! ## A word placed where the next step fetches (log entry 4) -/

namespace Sys2Proof.Machine

/-- Placing all 128 bits of a word places that word. -/
theorem State.withFetchWord_toNat (s : State) (w : InstrWord) : s.withFetchWord 128 w.toNat = s.placeAtFetch w := by
  rw [State.withFetchWord, Nat.mod_eq_of_lt w.isLt, BitVec.ofNat_toNat, BitVec.setWidth_eq]

/-- The slot can hold an instruction: the index after it exists. -/
theorem State.fetchSlot_toNat_lt (s : State) : s.fetchSlot.toNat < 2 ^ 64 - 1 := by
  unfold State.fetchSlot
  split
  next => decide
  next hne =>
    have hlast : s.pc.toNat ≠ 2 ^ 64 - 1 := fun h => hne (BitVec.eq_of_toNat_eq (by rw [h, BitVec.toNat_allOnes]))
    omega

/-- The length is made to include the slot. -/
theorem State.placeAtFetch_pc_lt_progLen (s : State) (w : InstrWord) :
    (s.placeAtFetch w).pc < (s.placeAtFetch w).progLen := by
  have hslot := s.fetchSlot_toNat_lt
  rw [State.placeAtFetch_pc, State.placeAtFetch_progLen]
  split
  · assumption
  · bv_omega

/-- The word placed is the word at the next fetch. -/
theorem State.placeAtFetch_instrAt {s : State} (h : s.prog.wf) (w : InstrWord) :
    (s.placeAtFetch w).instrAt (s.placeAtFetch w).pc = decode w := by
  rw [State.instrAt, State.fetchWord, State.placeAtFetch_pc, State.placeAtFetch_prog, Memory.readWord_writeWord _ w h]

end Sys2Proof.Machine

section
open Sys2Proof Sys2Proof.Machine

/-- Settles O37: the machine with the word placed is running below `LEN` and fetches that word. -/
theorem placedWordRunsNext : Obligations.PlacedWordRunsNext := by
  intro s w i hwf hi
  rw [State.withFetchWord_toNat]
  have hfetched : (s.placeAtFetch w).instrAt (s.placeAtFetch w).pc = .ok i := (s.placeAtFetch_instrAt hwf w).trans hi
  exact ⟨step_eq_exec rfl (s.placeAtFetch_pc_lt_progLen w) hfetched, rfl, fun _ => rfl, rfl⟩

end

/-! ## The step over natural numbers (44_sequencer R134, 00_scope R7)

Each update of the machine's state has its counterpart over the abstract state; the word arithmetic meets `wrap64`, and
`pc + 1` is a number's successor because the instruction stands below `LEN`. -/

namespace Sys2Proof.Machine

/-! ### Updates -/

theorem State.abs_setReg (s : State) (r : Reg) (v : Word) : (s.setReg r v).abs = s.abs.set r v.toNat := by
  have hx : (fun q => ((s.setReg r v).reg q).toNat) = fun q => if q = r then v.toNat else (s.reg q).toNat := by
    funext q
    rw [State.reg_setReg, apply_ite BitVec.toNat]
  exact congrArg (RefState.mk · s.flag s.pc.toNat s.status s.fault.kind s.fault.index.toNat) hx

theorem State.abs_nextPc {s : State} (h : s.pc < s.progLen) : s.nextPc.abs = s.abs.incPc := by
  have hpc : (s.pc + 1).toNat = s.pc.toNat + 1 := (toNat_succ_of_lt h).1
  exact congrArg (RefState.mk s.abs.x s.flag · s.status s.fault.kind s.fault.index.toNat) hpc

theorem State.abs_branch {s : State} (h : s.pc < s.progLen) (b : Bool) (t : Index) :
    (s.branch b t).abs = if b then s.abs.jump t.toNat else s.abs.incPc := by
  cases b with
  | true => rfl
  | false => exact State.abs_nextPc h

/-! ### Arithmetic -/

/-- `wrap64` is what `narrow` takes under `wrap`, as a number (R11). -/
theorem wrap64_eq_narrow (v : Int) : wrap64 v = (narrow .wrap v).toNat := by
  rw [wrap64, ← narrow_wrap_toNat, Int.toNat_natCast]

theorem wrap64_add (a b : Word) : wrap64 (a.toNat + b.toNat) = (a + b).toNat := by
  rw [wrap64_eq_narrow, ← aluAdd_wrap, aluAdd]

theorem wrap64_sub (a b : Word) : wrap64 (a.toNat - b.toNat) = (a - b).toNat := by
  rw [wrap64_eq_narrow, ← aluSub_wrap, aluSub]

theorem wrap64_mul (a b : Word) : wrap64 (a.toNat * b.toNat) = (a * b).toNat := by
  rw [wrap64_eq_narrow, ← aluMul_wrap, aluMul]

/-- Writing back the value just read changes nothing (R81). -/
theorem RefState.set_self (a : RefState) (r : Reg) : a.set r (a.x r) = a := by
  have hx : (fun q => if q = r then a.x r else a.x q) = a.x := by
    funext q
    split
    next h => rw [h]
    next => rfl
  exact congrArg (RefState.mk · a.flag a.pc a.status a.faultKind a.faultIndex) hx

/-! ### One instruction -/

/-- Below `LEN` the abstract instruction commutes with the machine's. -/
theorem refExec_abs {s : State} (h : s.pc < s.progLen) (i : Instr) : refExec i s.abs = (after i s).abs := by
  have hwrite : ∀ rd v, ((s.setReg rd v).nextPc).abs = (s.abs.set rd v.toNat).incPc := fun rd v => by
    rw [State.abs_nextPc (s := s.setReg rd v) h, State.abs_setReg]
  cases i with
  | movi rd imm => exact (hwrite rd imm).symm
  | movr rd rn =>
    show (s.abs.set rn (s.abs.x rn)).incPc = s.nextPc.abs
    rw [RefState.set_self, State.abs_nextPc h]
  | cmp rn rm => exact (State.abs_nextPc (s := s.setFlag (compareFlag (s.reg rn) (s.reg rm))) h).symm
  | add rd rn rm =>
    rw [after, hwrite, ← wrap64_add]
    rfl
  | sub rd rn rm =>
    rw [after, hwrite, ← wrap64_sub]
    rfl
  | mul rd rn rm =>
    rw [after, hwrite, ← wrap64_mul]
    rfl
  | div rd rn rm =>
    have hzero : s.abs.x rm = 0 ↔ s.reg rm = 0 := BitVec.toNat_eq (y := 0).symm
    by_cases hz : s.reg rm = 0
    · rw [refExec, if_pos (hzero.2 hz), after, if_pos hz]
      rfl
    · rw [refExec, if_neg (mt hzero.1 hz), after, if_neg hz, hwrite, aluDiv_toNat]
      rfl
  | beq t =>
    rw [after, State.abs_branch h]
    simp only [takenIfEqual_iff]
    rfl
  | blt t =>
    rw [after, State.abs_branch h]
    simp only [takenIfLessThan_iff]
    rfl

/-! ### The program -/

theorem State.absProg_of_program {s t : State} (hprog : t.prog = s.prog) (hlen : t.progLen = s.progLen) :
    t.absProg = s.absProg := by
  funext i
  rw [State.absProg, State.absProg, hprog, hlen]

/-- The abstract program below `LEN` is what the machine fetches. -/
theorem State.absProg_pc {s : State} (h : s.pc < s.progLen) {i : Instr} (hi : s.instrAt s.pc = .ok i) :
    s.absProg s.pc.toNat = some i := by
  have hfetched : decode (s.prog.readWord s.pc.toNat) = .ok i := hi
  have hlt : s.pc.toNat < s.progLen.toNat := h
  rw [State.absProg, if_pos hlt, hfetched]
  rfl

/-! ### One step -/

/-- A running machine with a well-formed program has a next state: the refusal of an ill-formed word is the only stop. -/
theorem exists_step_of_wellFormed {s : State} (hs : s.status = .running) (hwf : s.ProgramWellFormed) :
    ∃ t, step s = .next t := by
  by_cases hat : s.pc = s.progLen
  · exact ⟨_, step_at_length hs hat⟩
  by_cases habove : s.progLen < s.pc
  · exact ⟨_, step_beyond_length hs habove⟩
  · have hbelow : s.pc < s.progLen := by bv_omega
    obtain ⟨i, hi⟩ := hwf s.pc hbelow
    exact ⟨_, step_of_run hs hbelow hi⟩

/-- The tests of `refStep` in a running state. -/
theorem refStep_of_running {prog : Nat → Option Instr} {len : Nat} {a : RefState} (h : a.status = .running) :
    refStep prog len a =
      if a.pc = len then some { a with status := .halted }
      else if len < a.pc then some (a.raise .invalidProgramCounter a.pc)
      else (prog a.pc).map fun i => refExec i a := by
  rw [refStep, h]

theorem refStep_of_not_running {a : RefState} (h : a.status ≠ .running) (prog : Nat → Option Instr) (len : Nat) :
    refStep prog len a = none := by
  unfold refStep
  split
  · rfl
  · rfl
  next hrun => exact absurd hrun h

/-- Whatever a step is, the abstract step function makes the same of the abstract state. -/
theorem refStep_abs {s t : State} (h : step s = .next t) : refStep s.absProg s.progLen.toNat s.abs = some t.abs := by
  obtain ⟨hrun, hcases⟩ := step_next_cases h
  rw [refStep_of_running (a := s.abs) hrun]
  have hat_iff : s.abs.pc = s.progLen.toNat ↔ s.pc = s.progLen := BitVec.toNat_eq.symm
  obtain ⟨hat, rfl⟩ | ⟨habove, rfl⟩ | ⟨hbelow, i, hi, rfl⟩ := hcases
  · rw [if_pos (hat_iff.2 hat)]
    rfl
  · have hlt : s.progLen.toNat < s.abs.pc := habove
    rw [if_neg (mt hat_iff.1 (BitVec.ne_of_lt habove).symm), if_pos hlt]
    rfl
  · have hnotAbove : ¬ s.progLen.toNat < s.abs.pc := BitVec.lt_asymm hbelow
    rw [if_neg (mt hat_iff.1 (BitVec.ne_of_lt hbelow)), if_neg hnotAbove, ← refExec_abs hbelow i]
    exact congrArg (Option.map fun i => refExec i s.abs) (State.absProg_pc hbelow hi)

end Sys2Proof.Machine

section
open Sys2Proof Sys2Proof.Machine

/-- Settles O24: each of the three things a step can be is the branch of R134 with the same test, and no step writes the
program. -/
theorem stepRefinesReference : Obligations.StepRefinesReference := by
  refine ⟨fun s hs hwf => ?_, fun s hs => ⟨refStep_of_not_running (a := s.abs) hs _ _, step_ne_next_of_not_running hs⟩⟩
  obtain ⟨t, h⟩ := exists_step_of_wellFormed hs hwf
  obtain ⟨hprog, hlen⟩ := step_keeps_program h
  exact ⟨t, h, refStep_abs h, State.absProg_of_program hprog hlen, hlen⟩

end

/-! ## A program without a branch (44_sequencer R142)

By induction on the number of instructions left: at `LEN` the machine halts, and below it either the DIV by zero ends the
run or `pc` is one further and the same holds there. -/

namespace Sys2Proof.Machine

/-- The run from `s` ends in `t` after `k` steps: running until then with `pc` advanced by one a step, and in the end
halted at `LEN` or stopped at a DIV by zero. -/
def State.EndsAfter (s : State) (k : Nat) (t : State) : Prop :=
  core.run k s = .next t ∧
    (∀ j, j < k → ∃ u, core.run j s = .next u ∧ u.status = .running ∧ u.pc.toNat = s.pc.toNat + j) ∧
    ((t.status = .halted ∧ t.pc = s.progLen ∧ k = s.progLen.toNat - s.pc.toNat + 1) ∨
      (t.status = .faulted ∧ t.fault.kind = .divisionByZero ∧ k ≤ s.progLen.toNat - s.pc.toNat ∧
        ∃ rd rn rm, s.instrAt t.pc = .ok (.div rd rn rm) ∧ t.reg rm = 0))

/-- Before the first of one step the machine is where it starts. -/
theorem running_before_one {s : State} (hs : s.status = .running) :
    ∀ j, j < 1 → ∃ u, core.run j s = .next u ∧ u.status = .running ∧ u.pc.toNat = s.pc.toNat + j := by
  intro j hj
  obtain rfl : j = 0 := by omega
  exact ⟨s, run_zero s, hs, rfl⟩

theorem State.endsAfter_at_length {s : State} (hs : s.status = .running) (hat : s.pc = s.progLen) :
    s.EndsAfter 1 s.halt := by
  refine ⟨run_succ_of_next 0 (step_at_length hs hat), running_before_one hs, .inl ⟨rfl, hat, ?_⟩⟩
  rw [hat, Nat.sub_self]

theorem State.endsAfter_at_div_zero {s : State} (hs : s.status = .running) (hz : s.DividesByZero) :
    s.EndsAfter 1 (s.raise .divisionByZero s.pc) := by
  obtain ⟨hbelow, rd, rn, rm, hi, hrm⟩ := hz
  have hstep : step s = .next (s.raise .divisionByZero s.pc) :=
    (step_of_run hs hbelow hi).trans (congrArg _ (if_pos hrm))
  have hleft : 1 ≤ s.progLen.toNat - s.pc.toNat := by bv_omega
  exact ⟨run_succ_of_next 0 hstep, running_before_one hs, .inr ⟨rfl, rfl, hleft, rd, rn, rm, hi, hrm⟩⟩

/-- One step with the increment before a run that ends. -/
theorem State.EndsAfter.of_step {s u t : State} {k : Nat} (hs : s.status = .running) (hbelow : s.pc < s.progLen)
    (h : step s = .next u) (hpc : u.pc = s.pc + 1) (hu : u.EndsAfter k t) : s.EndsAfter (k + 1) t := by
  obtain ⟨hrun, hbefore, hend⟩ := hu
  obtain ⟨hprog, hlen⟩ := step_keeps_program h
  obtain ⟨hpcNat, hle⟩ := toNat_succ_of_lt hbelow
  rw [← hpc] at hpcNat hle
  refine ⟨(run_succ_of_next k h).trans hrun, fun j hj => ?_, ?_⟩
  · cases j with
    | zero => exact ⟨s, run_zero s, hs, rfl⟩
    | succ j =>
      obtain ⟨v, hv, hvrun, hvpc⟩ := hbefore j (by omega)
      exact ⟨v, (run_succ_of_next j h).trans hv, hvrun, by omega⟩
  · rw [hlen, instrAt_congr hprog] at hend
    obtain ⟨hhalted, hat, hk⟩ | ⟨hfaulted, hkind, hk, hdiv⟩ := hend
    · exact .inl ⟨hhalted, hat, by omega⟩
    · exact .inr ⟨hfaulted, hkind, by omega, hdiv⟩

/-- Every run of a well-formed program without a branch ends, whatever number `n` of instructions is left. -/
theorem exists_endsAfter {n : Nat} {s : State} (hs : s.status = .running) (hin : s.PcInRange)
    (hwf : s.ProgramWellFormed) (hfree : s.BranchFree) (hn : s.progLen.toNat - s.pc.toNat = n) :
    ∃ k t, s.EndsAfter k t := by
  induction n generalizing s with
  | zero =>
    have hat : s.pc = s.progLen := by
      unfold State.PcInRange at hin
      bv_omega
    exact ⟨_, _, State.endsAfter_at_length hs hat⟩
  | succ n ih =>
    have hbelow : s.pc < s.progLen := by bv_omega
    obtain ⟨i, hi⟩ := hwf s.pc hbelow
    have hnone : branchTarget i = none := hfree s.pc hbelow i hi
    obtain ⟨⟨rd, rn, rm, rfl, hz⟩, -⟩ | ⟨T, hT, -⟩ | ⟨-, hpc, hstatus, -⟩ := after_cases i s
    · exact ⟨_, _, State.endsAfter_at_div_zero hs ⟨hbelow, rd, rn, rm, hi, hz⟩⟩
    · cases hnone.symm.trans hT
    · have hprog := after_prog i s
      have hlen := after_progLen i s
      obtain ⟨hpcNat, -⟩ := toNat_succ_of_lt hbelow
      have hin' : (after i s).PcInRange := by
        rw [State.PcInRange, hpc, hlen]
        exact succ_le_of_lt hbelow
      obtain ⟨k, t, hend⟩ := ih (hstatus.trans hs) hin' (hwf.of_program hprog hlen) (hfree.of_program hprog hlen)
        (by rw [hpc, hlen]; omega)
      exact ⟨_, _, hend.of_step hs hbelow (step_of_run hs hbelow hi) hpc⟩

end Sys2Proof.Machine

section
open Sys2Proof Sys2Proof.Machine

/-- Settles O30. -/
theorem branchFreeProgramEnds : Obligations.BranchFreeProgramEnds := fun _ hs hin hwf hfree =>
  exists_endsAfter hs hin hwf hfree rfl

end

/-! ## The decoder by operations (30_encoding R63, R64, R69)

A word that passes the zero field has an operation code or none, and the operation code fixes the format. The pseudocode's
ten branches and the format table's check are read through that one case split. -/

namespace Sys2Proof

/-! ### Operation codes -/

theorem Op.ofCode_code (o : Op) : Op.ofCode o.code = some o := by cases o <;> rfl

theorem Op.ofCode_eq_some {b : Byte} {o : Op} : Op.ofCode b = some o ↔ b = o.code := by
  refine ⟨fun h => ?_, fun h => h ▸ Op.ofCode_code o⟩
  have hcode : (o.code == b) = true := List.find?_some (p := fun o : Op => o.code == b) h
  exact (beq_iff_eq.1 hcode).symm

theorem Op.ofCode_eq_none {b : Byte} : Op.ofCode b = none ↔ ∀ o : Op, b ≠ o.code := by
  simp only [Option.eq_none_iff_forall_ne_some, ne_eq, Op.ofCode_eq_some]

theorem Op.code_injective {o p : Op} (h : o.code = p.code) : o = p :=
  Option.some.inj ((Op.ofCode_code o).symm.trans (Op.ofCode_eq_some.2 h))

/-! ### The pseudocode's branches -/

/-- The branch of R69 for an operation. -/
def Op.decodeAs (f : Fields) : Op → Except IllFormed Instr
  | .movi => decodeI f .movi
  | .movr => decodeR2 f .movr
  | .cmp => decodeC f .cmp
  | .add => decodeR3 f .add
  | .sub => decodeR3 f .sub
  | .mul => decodeR3 f .mul
  | .div => decodeR3 f .div
  | .beq => decodeB f .beq
  | .blt => decodeB f .blt

theorem decodeFields_of_zero_ne {f : Fields} (hz : f.zero ≠ 0) : decodeFields f = .error .zeroField := if_pos hz

theorem decodeFields_of_code {f : Fields} {o : Op} (hz : f.zero = 0) (ho : f.op = o.code) :
    decodeFields f = o.decodeAs f := by
  rw [decodeFields, if_neg (not_not.2 hz), ho]
  cases o <;> rfl

theorem decodeFields_of_no_code {f : Fields} (hz : f.zero = 0) (ho : ∀ o : Op, f.op ≠ o.code) :
    decodeFields f = .error .opcode := by
  have hne : ∀ o : Op, f.op.toNat ≠ o.code.toNat := fun o h => ho o (BitVec.eq_of_toNat_eq h)
  rw [decodeFields, if_neg (not_not.2 hz)]
  split
  next h => exact absurd h (hne .movi)
  next h => exact absurd h (hne .movr)
  next h => exact absurd h (hne .cmp)
  next h => exact absurd h (hne .add)
  next h => exact absurd h (hne .sub)
  next h => exact absurd h (hne .mul)
  next h => exact absurd h (hne .div)
  next h => exact absurd h (hne .beq)
  next h => exact absurd h (hne .blt)
  next => rfl

/-! ### What a format's branch accepts -/

theorem decodeI_ok {f : Fields} {mk : Reg → Word → Instr} {i : Instr} (h : decodeI f mk = .ok i) :
    ∃ rd, i = mk rd f.imm64 ∧ f.rm = 0 ∧ f.rn = 0 ∧ f.rd = fieldOfReg rd := by
  unfold decodeI at h
  split at h
  next hunused =>
    split at h
    next rd hrd =>
      cases h
      exact ⟨rd, rfl, hunused.1, hunused.2, regOfField_eq_some.1 hrd⟩
    next => cases h
  next => cases h

theorem decodeR2_ok {f : Fields} {mk : Reg → Reg → Instr} {i : Instr} (h : decodeR2 f mk = .ok i) :
    ∃ rd rn, i = mk rd rn ∧ f.rm = 0 ∧ f.imm64 = 0 ∧ f.rd = fieldOfReg rd ∧ f.rn = fieldOfReg rn := by
  unfold decodeR2 at h
  split at h
  next hunused =>
    split at h
    next rd rn hrd hrn =>
      cases h
      exact ⟨rd, rn, rfl, hunused.1, hunused.2, regOfField_eq_some.1 hrd, regOfField_eq_some.1 hrn⟩
    next => cases h
  next => cases h

theorem decodeC_ok {f : Fields} {mk : Reg → Reg → Instr} {i : Instr} (h : decodeC f mk = .ok i) :
    ∃ rn rm, i = mk rn rm ∧ f.rd = 0 ∧ f.imm64 = 0 ∧ f.rn = fieldOfReg rn ∧ f.rm = fieldOfReg rm := by
  unfold decodeC at h
  split at h
  next hunused =>
    split at h
    next rn rm hrn hrm =>
      cases h
      exact ⟨rn, rm, rfl, hunused.1, hunused.2, regOfField_eq_some.1 hrn, regOfField_eq_some.1 hrm⟩
    next => cases h
  next => cases h

theorem decodeR3_ok {f : Fields} {mk : Reg → Reg → Reg → Instr} {i : Instr} (h : decodeR3 f mk = .ok i) :
    ∃ rd rn rm, i = mk rd rn rm ∧ f.imm64 = 0 ∧ f.rd = fieldOfReg rd ∧ f.rn = fieldOfReg rn ∧ f.rm = fieldOfReg rm := by
  unfold decodeR3 at h
  split at h
  next hunused =>
    split at h
    next rd rn rm hrd hrn hrm =>
      cases h
      exact ⟨rd, rn, rm, rfl, hunused, regOfField_eq_some.1 hrd, regOfField_eq_some.1 hrn, regOfField_eq_some.1 hrm⟩
    next => cases h
  next => cases h

theorem decodeB_ok {f : Fields} {mk : Index → Instr} {i : Instr} (h : decodeB f mk = .ok i) :
    i = mk f.imm64 ∧ f.rm = 0 ∧ f.rn = 0 ∧ f.rd = 0 := by
  unfold decodeB at h
  split at h
  next hunused =>
    cases h
    exact ⟨rfl, hunused⟩
  next => cases h

/-! ### Decoding and encoding are inverse -/

/-- An operation's branch accepts the fields of an instruction of that operation only. -/
theorem fields_of_decodeAs_ok {f : Fields} {o : Op} {i : Instr} (hz : f.zero = 0) (ho : f.op = o.code)
    (h : o.decodeAs f = .ok i) : f = encodeFields i := by
  obtain ⟨zero, op, rm, rn, rd, imm⟩ := f
  dsimp only at hz ho
  subst hz ho
  cases o with
  | movi =>
    obtain ⟨rd, rfl, rfl, rfl, rfl⟩ := decodeI_ok h
    rfl
  | movr =>
    obtain ⟨rd, rn, rfl, rfl, rfl, rfl, rfl⟩ := decodeR2_ok h
    rfl
  | cmp =>
    obtain ⟨rn, rm, rfl, rfl, rfl, rfl, rfl⟩ := decodeC_ok h
    rfl
  | add | sub | mul | div =>
    obtain ⟨rd, rn, rm, rfl, rfl, rfl, rfl, rfl⟩ := decodeR3_ok h
    rfl
  | beq | blt =>
    obtain ⟨rfl, rfl, rfl, rfl⟩ := decodeB_ok h
    rfl

theorem fields_of_decodeFields_ok {f : Fields} {i : Instr} (h : decodeFields f = .ok i) : f = encodeFields i := by
  by_cases hz : f.zero = 0
  · by_cases hcode : ∃ o : Op, f.op = o.code
    · obtain ⟨o, ho⟩ := hcode
      rw [decodeFields_of_code hz ho] at h
      exact fields_of_decodeAs_ok hz ho h
    · rw [decodeFields_of_no_code hz (not_exists.1 hcode)] at h
      cases h
  · rw [decodeFields_of_zero_ne hz] at h
    cases h

theorem decodeFields_encodeFields (i : Instr) : decodeFields (encodeFields i) = .ok i := by
  rw [decodeFields_of_code (encodeFields_zero i) (encodeFields_op i)]
  cases i <;> simp [Instr.op, Op.decodeAs, encodeFields, decodeI, decodeR2, decodeC, decodeR3, decodeB]

@[simp] theorem decode_encode (i : Instr) : decode (encode i) = .ok i :=
  (decode_encode_eq i).trans (decodeFields_encodeFields i)

theorem encode_of_decode_ok {w : InstrWord} {i : Instr} (h : decode w = .ok i) : encode i = w := by
  rw [encode, ← fields_of_decodeFields_ok h, wordOf_fieldsOf]

/-- The 16 bytes of a word and any others: the word is decoded and the others are left (R44). -/
theorem decodeBytes_wordBytes_append {w : InstrWord} {i : Instr} (h : decode w = .ok i) (rest : List Byte) :
    decodeBytes (wordBytes w ++ rest) = .ok (i, rest) := by
  have hlong : ¬ (wordBytes w ++ rest).length < 16 := by simp [Machine.length_wordBytes]
  rw [decodeBytes, if_neg hlong, List.take_left' (Machine.length_wordBytes w), List.drop_left' (Machine.length_wordBytes w),
    Machine.ofNat_leNat_wordBytes, h]

/-! ### What a format's branch refuses -/

/-- The check of the format table for one format (R64, R65): unused fields first, then register fields. -/
def WordFormat.check (g : WordFormat) (f : Fields) : Option IllFormed :=
  if g.unusedZero f = false then some .unusedField
  else if g.registersLegal f = false then some .registerField
  else none

theorem Fields.check_of_zero_ne {f : Fields} (hz : f.zero ≠ 0) : f.check = some .zeroField := if_pos hz

theorem Fields.check_of_code {f : Fields} {o : Op} (hz : f.zero = 0) (ho : f.op = o.code) :
    f.check = o.format.check f := by
  rw [Fields.check, if_neg (not_not.2 hz), Op.ofCode_eq_some.2 ho]
  rfl

theorem Fields.check_of_no_code {f : Fields} (hz : f.zero = 0) (ho : ∀ o : Op, f.op ≠ o.code) :
    f.check = some .opcode := by
  rw [Fields.check, if_neg (not_not.2 hz), Op.ofCode_eq_none.2 ho]

theorem WordFormat.check_unusedField {g : WordFormat} {f : Fields} (h : g.unusedZero f = false) :
    g.check f = some .unusedField := if_pos h

theorem WordFormat.check_registerField {g : WordFormat} {f : Fields} (hu : g.unusedZero f = true)
    (hr : g.registersLegal f = false) : g.check f = some .registerField := by
  rw [WordFormat.check, if_neg (by simp [hu]), if_pos hr]

theorem WordFormat.check_eq_none {g : WordFormat} {f : Fields} :
    g.check f = none ↔ g.unusedZero f = true ∧ g.registersLegal f = true := by
  unfold WordFormat.check
  cases g.unusedZero f <;> cases g.registersLegal f <;> simp

theorem WordFormat.unusedZero_i (f : Fields) : WordFormat.i.unusedZero f = true ↔ f.rm = 0 ∧ f.rn = 0 := by
  simp [WordFormat.unusedZero, WordFormat.usesRd, WordFormat.usesRn, WordFormat.usesRm, WordFormat.usesImm, and_comm]

theorem WordFormat.unusedZero_r2 (f : Fields) : WordFormat.r2.unusedZero f = true ↔ f.rm = 0 ∧ f.imm64 = 0 := by
  simp [WordFormat.unusedZero, WordFormat.usesRd, WordFormat.usesRn, WordFormat.usesRm, WordFormat.usesImm]

theorem WordFormat.unusedZero_c (f : Fields) : WordFormat.c.unusedZero f = true ↔ f.rd = 0 ∧ f.imm64 = 0 := by
  simp [WordFormat.unusedZero, WordFormat.usesRd, WordFormat.usesRn, WordFormat.usesRm, WordFormat.usesImm]

theorem WordFormat.unusedZero_r3 (f : Fields) : WordFormat.r3.unusedZero f = true ↔ f.imm64 = 0 := by
  simp [WordFormat.unusedZero, WordFormat.usesRd, WordFormat.usesRn, WordFormat.usesRm, WordFormat.usesImm]

theorem WordFormat.unusedZero_b (f : Fields) :
    WordFormat.b.unusedZero f = true ↔ f.rm = 0 ∧ f.rn = 0 ∧ f.rd = 0 := by
  simp [WordFormat.unusedZero, WordFormat.usesRd, WordFormat.usesRn, WordFormat.usesRm, WordFormat.usesImm]
  tauto

/-- The register limits of a format, read as the decoder reads them (R65, R66). -/
theorem WordFormat.registersLegal_eq (g : WordFormat) (f : Fields) :
    g.registersLegal f = ((!g.usesRd || (regOfField f.rd).isSome) && (!g.usesRn || (regOfField f.rn).isSome) &&
      (!g.usesRm || (regOfField f.rm).isSome)) := by
  have hsome : ∀ b : Byte, decide (b.toNat ≤ 30) = (regOfField b).isSome := fun b => by
    unfold regOfField
    split <;> simp <;> omega
  simp only [WordFormat.registersLegal, hsome]

theorem WordFormat.registersLegal_i (f : Fields) :
    WordFormat.i.registersLegal f = true ↔ ∃ rd, regOfField f.rd = some rd := by
  simp [WordFormat.registersLegal_eq, WordFormat.usesRd, WordFormat.usesRn, WordFormat.usesRm,
    Option.isSome_iff_exists]

theorem WordFormat.registersLegal_r2 (f : Fields) : WordFormat.r2.registersLegal f = true ↔
    (∃ rd, regOfField f.rd = some rd) ∧ ∃ rn, regOfField f.rn = some rn := by
  simp [WordFormat.registersLegal_eq, WordFormat.usesRd, WordFormat.usesRn, WordFormat.usesRm,
    Option.isSome_iff_exists]

theorem WordFormat.registersLegal_c (f : Fields) : WordFormat.c.registersLegal f = true ↔
    (∃ rn, regOfField f.rn = some rn) ∧ ∃ rm, regOfField f.rm = some rm := by
  simp [WordFormat.registersLegal_eq, WordFormat.usesRd, WordFormat.usesRn, WordFormat.usesRm,
    Option.isSome_iff_exists]

theorem WordFormat.registersLegal_r3 (f : Fields) : WordFormat.r3.registersLegal f = true ↔
    ((∃ rd, regOfField f.rd = some rd) ∧ ∃ rn, regOfField f.rn = some rn) ∧ ∃ rm, regOfField f.rm = some rm := by
  simp [WordFormat.registersLegal_eq, WordFormat.usesRd, WordFormat.usesRn, WordFormat.usesRm,
    Option.isSome_iff_exists]

/-- A format's branch of the pseudocode refuses by the name that the format's check gives. -/
theorem check_of_decodeI_error {f : Fields} {mk : Reg → Word → Instr} {r : IllFormed} (h : decodeI f mk = .error r) :
    WordFormat.i.check f = some r := by
  unfold decodeI at h
  split at h
  next hu =>
    split at h
    next => cases h
    next hrd =>
      cases h
      refine WordFormat.check_registerField ((WordFormat.unusedZero_i f).2 hu) (Bool.eq_false_iff.2 fun hlegal => ?_)
      obtain ⟨rd, hrd'⟩ := (WordFormat.registersLegal_i f).1 hlegal
      cases hrd.symm.trans hrd'
  next hu =>
    cases h
    exact WordFormat.check_unusedField (Bool.eq_false_iff.2 (mt (WordFormat.unusedZero_i f).1 hu))

theorem check_of_decodeR2_error {f : Fields} {mk : Reg → Reg → Instr} {r : IllFormed}
    (h : decodeR2 f mk = .error r) : WordFormat.r2.check f = some r := by
  unfold decodeR2 at h
  split at h
  next hu =>
    split at h
    next => cases h
    next hregs =>
      cases h
      refine WordFormat.check_registerField ((WordFormat.unusedZero_r2 f).2 hu) (Bool.eq_false_iff.2 fun hlegal => ?_)
      obtain ⟨⟨rd, hrd⟩, rn, hrn⟩ := (WordFormat.registersLegal_r2 f).1 hlegal
      exact hregs rd rn hrd hrn
  next hu =>
    cases h
    exact WordFormat.check_unusedField (Bool.eq_false_iff.2 (mt (WordFormat.unusedZero_r2 f).1 hu))

theorem check_of_decodeC_error {f : Fields} {mk : Reg → Reg → Instr} {r : IllFormed}
    (h : decodeC f mk = .error r) : WordFormat.c.check f = some r := by
  unfold decodeC at h
  split at h
  next hu =>
    split at h
    next => cases h
    next hregs =>
      cases h
      refine WordFormat.check_registerField ((WordFormat.unusedZero_c f).2 hu) (Bool.eq_false_iff.2 fun hlegal => ?_)
      obtain ⟨⟨rn, hrn⟩, rm, hrm⟩ := (WordFormat.registersLegal_c f).1 hlegal
      exact hregs rn rm hrn hrm
  next hu =>
    cases h
    exact WordFormat.check_unusedField (Bool.eq_false_iff.2 (mt (WordFormat.unusedZero_c f).1 hu))

theorem check_of_decodeR3_error {f : Fields} {mk : Reg → Reg → Reg → Instr} {r : IllFormed}
    (h : decodeR3 f mk = .error r) : WordFormat.r3.check f = some r := by
  unfold decodeR3 at h
  split at h
  next hu =>
    split at h
    next => cases h
    next hregs =>
      cases h
      refine WordFormat.check_registerField ((WordFormat.unusedZero_r3 f).2 hu) (Bool.eq_false_iff.2 fun hlegal => ?_)
      obtain ⟨⟨⟨rd, hrd⟩, rn, hrn⟩, rm, hrm⟩ := (WordFormat.registersLegal_r3 f).1 hlegal
      exact hregs rd rn rm hrd hrn hrm
  next hu =>
    cases h
    exact WordFormat.check_unusedField (Bool.eq_false_iff.2 (mt (WordFormat.unusedZero_r3 f).1 hu))

theorem check_of_decodeB_error {f : Fields} {mk : Index → Instr} {r : IllFormed} (h : decodeB f mk = .error r) :
    WordFormat.b.check f = some r := by
  unfold decodeB at h
  split at h
  next => cases h
  next hu =>
    cases h
    exact WordFormat.check_unusedField (Bool.eq_false_iff.2 (mt (WordFormat.unusedZero_b f).1 hu))

theorem check_of_decodeAs_error {f : Fields} {o : Op} {r : IllFormed} (h : o.decodeAs f = .error r) :
    o.format.check f = some r := by
  cases o with
  | movi => exact check_of_decodeI_error h
  | movr => exact check_of_decodeR2_error h
  | cmp => exact check_of_decodeC_error h
  | add | sub | mul | div => exact check_of_decodeR3_error h
  | beq | blt => exact check_of_decodeB_error h

theorem check_of_decodeFields_error {f : Fields} {r : IllFormed} (h : decodeFields f = .error r) :
    f.check = some r := by
  by_cases hz : f.zero = 0
  · by_cases hcode : ∃ o : Op, f.op = o.code
    · obtain ⟨o, ho⟩ := hcode
      rw [decodeFields_of_code hz ho] at h
      rw [Fields.check_of_code hz ho]
      exact check_of_decodeAs_error h
    · rw [decodeFields_of_no_code hz (not_exists.1 hcode)] at h
      cases h
      exact Fields.check_of_no_code hz (not_exists.1 hcode)
  · rw [decodeFields_of_zero_ne hz] at h
    cases h
    exact Fields.check_of_zero_ne hz

/-- An encoded instruction passes the check. -/
theorem check_encode (i : Instr) : (fieldsOf (encode i)).check = none := by
  cases i with
  | movi rd imm => exact Laws.CleanWord.movi rd imm
  | movr rd rn => exact Laws.CleanWord.movr rd rn
  | cmp rn rm => exact Laws.CleanWord.cmp rn rm
  | add rd rn rm => exact Laws.CleanWord.add rd rn rm
  | sub rd rn rm => exact Laws.CleanWord.sub rd rn rm
  | mul rd rn rm => exact Laws.CleanWord.mul rd rn rm
  | div rd rn rm => exact Laws.CleanWord.div rd rn rm
  | beq t => exact Laws.CleanWord.beq t
  | blt t => exact Laws.CleanWord.blt t

theorem check_of_decode_ok {w : InstrWord} {i : Instr} (h : decode w = .ok i) : (fieldsOf w).check = none := by
  rw [← encode_of_decode_ok h]
  exact check_encode i

/-- Decoder and check accept the same words. -/
theorem exists_decode_of_check {w : InstrWord} (h : (fieldsOf w).check = none) : ∃ i, decode w = .ok i := by
  cases hw : decode w with
  | ok i => exact ⟨i, rfl⟩
  | error r => cases h.symm.trans (check_of_decodeFields_error hw)

end Sys2Proof

section
open Sys2Proof Sys2Proof.Machine

/-- Settles O41: the fields of an encoded instruction are decoded by its own format, and 16 bytes of an image are a word. -/
theorem decodeEncodeRoundTrip : Obligations.DecodeEncodeRoundTrip := fun i rest =>
  ⟨decode_encode i, decodeBytes_wordBytes_append (decode_encode i) rest⟩

/-- Settles O42: the fields of an accepted word are those of the instruction read, so the word is. -/
theorem encodeDecodeRoundTrip : Obligations.EncodeDecodeRoundTrip := fun _ _ => encode_of_decode_ok

/-- Settles O44: a refusal is the check's by `check_of_decodeFields_error`, and a word the decoder accepts passes the
check. -/
theorem decoderAgreesWithFormatCheck : Obligations.DecoderAgreesWithFormatCheck := by
  intro w r
  refine ⟨check_of_decodeFields_error, fun h => ?_⟩
  cases hw : decode w with
  | ok i => cases h.symm.trans (check_of_decode_ok hw)
  | error r' => exact congrArg _ (Option.some.inj ((check_of_decodeFields_error hw).symm.trans h))

/-- Settles O45: eight words, decoded. -/
theorem workedEncodingsDecode : Obligations.WorkedEncodingsDecode := by
  unfold Obligations.WorkedEncodingsDecode
  decide

end

/-! ## Match and mask (30_encoding R65)

A mask is a word like any other: every bit of the zero field, the operation code and the unused fields, and no bit of the
used ones. Masking is therefore done field by field. -/

namespace Sys2Proof

/-- Bitwise AND field by field. -/
def Fields.and (f g : Fields) : Fields where
  zero := f.zero &&& g.zero
  op := f.op &&& g.op
  rm := f.rm &&& g.rm
  rn := f.rn &&& g.rn
  rd := f.rd &&& g.rd
  imm64 := f.imm64 &&& g.imm64

theorem wordOf_and (f g : Fields) : wordOf f &&& wordOf g = wordOf (f.and g) := by
  show (f.zero ++ f.op ++ f.rm ++ f.rn ++ f.rd ++ f.imm64 : BitVec (32 + 8 + 8 + 8 + 8 + 64)) &&&
    (g.zero ++ g.op ++ g.rm ++ g.rn ++ g.rd ++ g.imm64) = _
  simp only [wordOf, Fields.and, BitVec.and_append]

theorem wordOf_injective {f g : Fields} (h : wordOf f = wordOf g) : f = g := by
  rw [← fieldsOf_wordOf f, h, fieldsOf_wordOf]

/-- A field's part of a mask: no bit of a used field, every bit of an unused one. -/
def fieldMask (n : Nat) (used : Bool) : BitVec n := if used then 0 else BitVec.allOnes n

theorem and_fieldMask_eq_zero {n : Nat} (x : BitVec n) (used : Bool) :
    x &&& fieldMask n used = 0 ↔ (used || x == 0) = true := by
  cases used <;> simp [fieldMask]

/-- The fields of an operation's mask. -/
def Op.maskFields (o : Op) : Fields where
  zero := fieldMask 32 false
  op := fieldMask 8 false
  rm := fieldMask 8 o.format.usesRm
  rn := fieldMask 8 o.format.usesRn
  rd := fieldMask 8 o.format.usesRd
  imm64 := fieldMask 64 o.format.usesImm

theorem Op.mask_eq (o : Op) : o.mask = wordOf o.maskFields := by cases o <;> rfl

theorem Op.pattern_eq (o : Op) : o.pattern = wordOf ⟨0, o.code, 0, 0, 0, 0⟩ := by cases o <;> rfl

/-- Match and mask fix the zero field and the operation code, and say that the unused fields are zero. -/
theorem Op.and_mask_eq_pattern (o : Op) (w : InstrWord) : w &&& o.mask = o.pattern ↔
    (fieldsOf w).zero = 0 ∧ (fieldsOf w).op = o.code ∧ o.format.unusedZero (fieldsOf w) = true := by
  have hfields : w &&& o.mask = o.pattern ↔ (fieldsOf w).and o.maskFields = ⟨0, o.code, 0, 0, 0, 0⟩ := by
    rw [Op.mask_eq, Op.pattern_eq, ← wordOf_fieldsOf w, wordOf_and, fieldsOf_wordOf]
    exact ⟨wordOf_injective, congrArg wordOf⟩
  have hop : (fieldsOf w).op &&& fieldMask 8 false = (fieldsOf w).op := BitVec.and_allOnes
  rw [hfields]
  simp only [Fields.and, Op.maskFields, Fields.mk.injEq, and_fieldMask_eq_zero, hop, WordFormat.unusedZero,
    Bool.and_eq_true, Bool.false_or, beq_iff_eq]
  exact ⟨fun ⟨hz, ho, hrm, hrn, hrd, himm⟩ => ⟨hz, ho, ⟨⟨hrd, hrn⟩, hrm⟩, himm⟩,
    fun ⟨hz, ho, ⟨⟨hrd, hrn⟩, hrm⟩, himm⟩ => ⟨hz, ho, hrm, hrn, hrd, himm⟩⟩

/-- A row of the table is the check under that row's operation code. -/
theorem Op.matches_iff (o : Op) (w : InstrWord) :
    o.matches w = true ↔ (fieldsOf w).zero = 0 ∧ (fieldsOf w).op = o.code ∧ (fieldsOf w).check = none := by
  have hcheck : (fieldsOf w).zero = 0 → (fieldsOf w).op = o.code → ((fieldsOf w).check = none ↔
      o.format.unusedZero (fieldsOf w) = true ∧ o.format.registersLegal (fieldsOf w) = true) := fun hz ho => by
    rw [Fields.check_of_code hz ho, WordFormat.check_eq_none]
  rw [Op.matches, Bool.and_eq_true, beq_iff_eq, Op.and_mask_eq_pattern]
  exact ⟨fun ⟨⟨hz, ho, hu⟩, hr⟩ => ⟨hz, ho, (hcheck hz ho).2 ⟨hu, hr⟩⟩,
    fun ⟨hz, ho, hc⟩ => ⟨⟨hz, ho, ((hcheck hz ho).1 hc).1⟩, ((hcheck hz ho).1 hc).2⟩⟩

/-- The operation code of an accepted word is that of the instruction read. -/
theorem fields_of_decode_ok {w : InstrWord} {i : Instr} (h : decode w = .ok i) :
    (fieldsOf w).zero = 0 ∧ (fieldsOf w).op = i.op.code := by
  have hfields : fieldsOf w = encodeFields i := fields_of_decodeFields_ok h
  rw [hfields]
  exact ⟨encodeFields_zero i, encodeFields_op i⟩

end Sys2Proof

section
open Sys2Proof Sys2Proof.Machine

/-- Settles O43: both sides say that the word passes the check and has the operation's code, and codes are distinct. -/
theorem decoderAgreesWithMaskTable : Obligations.DecoderAgreesWithMaskTable := by
  intro w o
  refine ⟨⟨?_, fun h => ?_⟩, fun p ho hp => ?_⟩
  · rintro ⟨i, hi, rfl⟩
    obtain ⟨hz, hop⟩ := fields_of_decode_ok hi
    exact (i.op.matches_iff w).2 ⟨hz, hop, check_of_decode_ok hi⟩
  · obtain ⟨-, hop, hcheck⟩ := (o.matches_iff w).1 h
    obtain ⟨i, hi⟩ := exists_decode_of_check hcheck
    exact ⟨i, hi, Op.code_injective ((fields_of_decode_ok hi).2.symm.trans hop)⟩
  · obtain ⟨-, hopo, -⟩ := (o.matches_iff w).1 ho
    obtain ⟨-, hopp, -⟩ := (p.matches_iff w).1 hp
    exact Op.code_injective (hopo.symm.trans hopp)

end

/-! ## The bytes of a loaded program (20_memory R44) -/

namespace Sys2Proof.Machine

theorem leNat_lt (bs : List Byte) : leNat bs < 256 ^ bs.length := by
  induction bs with
  | nil => simp [leNat]
  | cons b bs ih =>
    have hb : b.toNat < 256 := b.isLt
    rw [leNat, List.length_cons, pow_succ']
    omega

/-- A byte string's number has the string's bytes as its digits to base 256, the first least significant. -/
theorem leNat_digit (bs : List Byte) (k : Nat) (hk : k < bs.length) :
    leNat bs / 256 ^ k % 256 = bs[k].toNat := by
  induction bs generalizing k with
  | nil => simp at hk
  | cons b bs ih =>
    have hb : b.toNat < 256 := b.isLt
    cases k with
    | zero =>
      simp only [leNat, List.getElem_cons_zero]
      omega
    | succ k =>
      have hrest : leNat (b :: bs) / 256 = leNat bs := by
        rw [leNat]
        omega
      rw [pow_succ', ← Nat.div_div_eq_div_mul, hrest, List.getElem_cons_succ]
      exact ih k (by simpa using hk)

@[simp] theorem Memory.length_readBytes (m : Memory) (a n : Nat) : (m.readBytes a n).length = n := by
  induction n generalizing a with
  | zero => rfl
  | succ n ih => rw [Memory.readBytes, List.length_cons, ih]

theorem Memory.getElem_readBytes (m : Memory) (a n k : Nat) (hk : k < (m.readBytes a n).length) :
    (m.readBytes a n)[k] = m.read (a + k) := by
  induction n generalizing a k with
  | zero => simp [Memory.readBytes] at hk
  | succ n ih =>
    cases k with
    | zero => rfl
    | succ k =>
      simp only [Memory.readBytes, List.getElem_cons_succ]
      rw [ih, Nat.add_assoc, Nat.add_comm 1 k]

/-- Byte `k` of the word at an index is byte `k` of the store from that index's address up. -/
theorem Memory.extract_readWord (m : Memory) (i k : Nat) (hk : k < 16) :
    (m.readWord i).extractLsb' (8 * k) 8 = m.read (byteAddr i + k) := by
  have hlen := m.length_readBytes (byteAddr i) 16
  have hfits : leNat (m.readBytes (byteAddr i) 16) < 2 ^ 128 := by
    have := leNat_lt (m.readBytes (byteAddr i) 16)
    rwa [hlen] at this
  have hdigit := leNat_digit (m.readBytes (byteAddr i) 16) k (by omega)
  refine BitVec.eq_of_toNat_eq ?_
  rw [BitVec.extractLsb'_toNat, Memory.readWord, BitVec.toNat_ofNat, Nat.mod_eq_of_lt hfits, Nat.shiftRight_eq_div_pow,
    pow_mul, ← m.getElem_readBytes (byteAddr i) 16 k (by omega)]
  exact hdigit

end Sys2Proof.Machine

section
open Sys2Proof Sys2Proof.Machine

/-- Settles O46: the word at each index is the program's, and the store's bytes are that word's. -/
theorem loadedImageIsLittleEndian : Obligations.LoadedImageIsLittleEndian := by
  intro v ws s h i hi k hk
  obtain ⟨-, rfl⟩ := (boot_eq_ok v ws s).1 h
  have hword := Memory.readWord_writeWords 0 i ws State.reset_wf hi
  rw [Nat.zero_add] at hword
  rw [← hword]
  exact (Memory.extract_readWord _ i k hk).symm

end

/-! ## What the Loader delivers and what it turns away (30_encoding R70, R71; 60_exceptions R154) -/

namespace Sys2Proof.Machine

/-! ### Refusals -/

theorem exists_boot_error (v : Bool) (ws : List InstrWord) :
    (∃ e, boot v ws = .error e) ↔ loadError v ws ≠ none := by
  simp only [boot_eq_error, Option.ne_none_iff_exists']

theorem not_exists_decode_ok (w : InstrWord) : (¬ ∃ i, decode w = .ok i) ↔ ∃ r, decode w = .error r := by
  cases decode w <;> simp

/-- A program of words that decode is never refused for an ill-formed word. -/
theorem loadError_ne_illFormed {ws : List InstrWord} (h : ∀ w ∈ ws, ∃ i, decode w = .ok i) (v : Bool) (k : Nat)
    (r : IllFormed) : loadError v ws ≠ some (.illFormed k r) := by
  unfold loadError
  rw [(firstIllFormed_eq_none 0 ws).2 h]
  split
  · simp
  · cases v with
    | false => simp
    | true => cases firstTargetAbove ws.length 0 ws <;> simp

/-- Where a target above the length is all that is wrong, the Loader that validates targets names one. -/
theorem loadError_targetAbove {ws : List InstrWord} {k : Nat} {T : Index} (hlen : ws.length < 2 ^ 64)
    (hdec : ∀ w ∈ ws, ∃ i, decode w = .ok i) (h : firstTargetAbove ws.length 0 ws = some (k, T)) :
    loadError true ws = some (.targetAboveLength k T) := by
  unfold loadError
  rw [if_neg (Nat.not_le.2 hlen), (firstIllFormed_eq_none 0 ws).2 hdec, h]
  rfl

/-! ### The program of the loaded state -/

/-- What the Loader looks for with targets validated: each is at most the number of words. -/
def TargetsWithin (ws : List InstrWord) : Prop := ∀ w ∈ ws, ∀ t, wordTarget w = some t → t.toNat ≤ ws.length

theorem loadedState_lt_progLen {ws : List InstrWord} (h : ws.length < 2 ^ 64) (i : Index) :
    i < (loadedState ws).progLen ↔ i.toNat < ws.length := by
  rw [BitVec.lt_def, loadedState_progLen_toNat h]

/-- The instruction at an index given as a number. -/
theorem loadedState_instrAt_ofNat {ws : List InstrWord} (h : ws.length < 2 ^ 64) {i : Nat} (hi : i < ws.length) :
    (loadedState ws).instrAt (BitVec.ofNat 64 i) = decode ws[i] := by
  have hnat : (BitVec.ofNat 64 i).toNat = i := by
    rw [BitVec.toNat_ofNat]
    omega
  rw [loadedState_instrAt (by rwa [hnat])]
  simp only [hnat]

theorem loadedState_programWellFormed {ws : List InstrWord} (h : ws.length < 2 ^ 64)
    (hdec : ∀ w ∈ ws, ∃ i, decode w = .ok i) : (loadedState ws).ProgramWellFormed := by
  intro i hi
  have hlt : i.toNat < ws.length := (loadedState_lt_progLen h i).1 hi
  rw [loadedState_instrAt hlt]
  exact hdec _ (List.getElem_mem hlt)

/-- The check of the Loader that validates targets is the premise on the program it delivers. -/
theorem loadedState_targetsValidated {ws : List InstrWord} (h : ws.length < 2 ^ 64) :
    (loadedState ws).TargetsValidated ↔ TargetsWithin ws := by
  have hle : ∀ t : Index, t ≤ (loadedState ws).progLen ↔ t.toNat ≤ ws.length := fun t => by
    rw [BitVec.le_def, loadedState_progLen_toNat h]
  constructor
  · intro hv w hw t ht
    obtain ⟨i, hi, rfl⟩ := List.getElem_of_mem hw
    obtain ⟨ins, hins, hT⟩ := (wordTarget_eq_some _ t).1 ht
    have hat := loadedState_instrAt_ofNat h hi
    have hi' : BitVec.ofNat 64 i < (loadedState ws).progLen := by
      rw [loadedState_lt_progLen h, BitVec.toNat_ofNat]
      omega
    exact (hle t).1 (hv _ hi' ins t (hat.trans hins) hT)
  · intro hw i hi ins t hins hT
    have hlt : i.toNat < ws.length := (loadedState_lt_progLen h i).1 hi
    rw [loadedState_instrAt hlt] at hins
    exact (hle t).2 (hw _ (List.getElem_mem hlt) t ((wordTarget_eq_some _ t).2 ⟨ins, hins, hT⟩))

/-- Delivered without validation: short enough, and every word decodes. -/
theorem boot_false_eq_ok (ws : List InstrWord) (s : State) :
    boot false ws = .ok s ↔ (ws.length < 2 ^ 64 ∧ ∀ w ∈ ws, ∃ i, decode w = .ok i) ∧ s = loadedState ws := by
  rw [boot_eq_ok, loadError_eq_none]
  simp

/-- Delivered with validation: that, and no target above the number of words. -/
theorem boot_true_eq_ok (ws : List InstrWord) (s : State) :
    boot true ws = .ok s ↔ boot false ws = .ok s ∧ s.TargetsValidated := by
  rw [boot_false_eq_ok, boot_eq_ok, loadError_eq_none]
  constructor
  · rintro ⟨⟨hlen, hdec, htargets⟩, rfl⟩
    exact ⟨⟨⟨hlen, hdec⟩, rfl⟩, (loadedState_targetsValidated hlen).2 (htargets rfl)⟩
  · rintro ⟨⟨⟨hlen, hdec⟩, rfl⟩, hv⟩
    exact ⟨⟨hlen, hdec, fun _ => (loadedState_targetsValidated hlen).1 hv⟩, rfl⟩

/-! ### Runs of a program with validated targets -/

/-- What a step keeps under validated targets: the premise, the range of `pc`, and a record that never names the invalid
counter. -/
def State.CounterSafe (s : State) : Prop :=
  s.TargetsValidated ∧ s.PcInRange ∧ s.fault.kind ≠ .invalidProgramCounter

theorem step_keeps_counterSafe {s t : State} (h : step s = .next t) (hs : s.CounterSafe) : t.CounterSafe := by
  obtain ⟨hv, hin, hkind⟩ := hs
  obtain ⟨hv', hin', hfaulted⟩ := counterStaysInRange s t hv hin h
  refine ⟨hv', hin', ?_⟩
  by_cases hf : t.status = .faulted
  · exact hfaulted hf
  · rwa [step_fault_of_not_faulted h hf]

theorem loadedState_counterSafe {ws : List InstrWord} (hv : (loadedState ws).TargetsValidated) :
    (loadedState ws).CounterSafe := by
  have hin : (loadedState ws).PcInRange := by
    rw [State.PcInRange, loadedState_pc]
    exact BitVec.le_def.2 (Nat.zero_le _)
  have hkind : (loadedState ws).fault.kind ≠ .invalidProgramCounter := by
    rw [loadedState_fault]
    decide
  exact ⟨hv, hin, hkind⟩

/-! ### Program text -/

theorem bootText_eq_ok (v : Bool) (lines : List (List Char)) (s : State) :
    bootText v lines = .ok s ↔ ∃ is, assemble lines = .ok is ∧ boot v (is.map encode) = .ok s := by
  unfold bootText
  cases assemble lines with
  | error e => simp
  | ok is => cases h : boot v (is.map encode) <;> simp [h]

theorem boot_of_bootText_eq_image {v : Bool} {lines : List (List Char)} {e : LoadError}
    (h : bootText v lines = .error (.image e)) : ∃ is : List Instr, boot v (is.map encode) = .error e := by
  unfold bootText at h
  split at h
  next => cases h
  next is _ =>
    split at h
    next hboot =>
      cases h
      exact ⟨is, hboot⟩
    next => cases h

/-- The words of instructions decode. -/
theorem exists_decode_of_mem_map_encode {is : List Instr} : ∀ w ∈ is.map encode, ∃ i, decode w = .ok i := by
  intro w hw
  obtain ⟨i, -, rfl⟩ := List.mem_map.1 hw
  exact ⟨i, decode_encode i⟩

end Sys2Proof.Machine

section
open Sys2Proof Sys2Proof.Machine

/-- Settles O47: the three reasons are the negation of what `loadError_eq_none` asks, and the state delivered is the loaded
state. -/
theorem bootRefusesOrDeliversWholeProgram : Obligations.BootRefusesOrDeliversWholeProgram := by
  intro v ws
  constructor
  · rw [exists_boot_error, ne_eq, loadError_eq_none, not_and_or, not_and_or, Nat.not_lt]
    refine or_congr Iff.rfl (or_congr ?_ ?_)
    · simp only [not_forall, not_exists_decode_ok, exists_prop]
    · simp only [wordTarget_eq_some, not_forall, exists_prop, Nat.not_le]
      refine and_congr_right fun _ => exists_congr fun w => and_congr_right fun _ => ?_
      exact ⟨fun ⟨T, ⟨i, hi, hT⟩, habove⟩ => ⟨i, T, hi, hT, habove⟩,
        fun ⟨i, T, hi, hT, habove⟩ => ⟨T, ⟨i, hi, hT⟩, habove⟩⟩
  · intro s h
    obtain ⟨hnone, rfl⟩ := (boot_eq_ok v ws s).1 h
    obtain ⟨hlen, hdec, -⟩ := (loadError_eq_none v ws).1 hnone
    exact ⟨loadedState_progLen_toNat hlen, loadedState_programWellFormed hlen hdec, loadedState_restart ws,
      fun i hi => loadedState_instrAt_ofNat hlen hi⟩

/-- Settles O52: the two Loaders differ by the check on targets alone, and what passes it is `CounterSafe`, which every
step keeps. -/
theorem validatingLoaderExcludesInvalidCounter : Obligations.ValidatingLoaderExcludesInvalidCounter := by
  intro ws
  refine ⟨boot_true_eq_ok ws, fun s h hnot => ?_, fun s h k t hrun => ?_⟩
  · obtain ⟨⟨hlen, hdec⟩, rfl⟩ := (boot_false_eq_ok ws s).1 h
    have hfound : firstTargetAbove ws.length 0 ws ≠ none := fun hnone =>
      hnot ((loadedState_targetsValidated hlen).2 ((firstTargetAbove_eq_none _ 0 ws).1 hnone))
    obtain ⟨⟨k, T⟩, hkT⟩ := Option.ne_none_iff_exists'.1 hfound
    exact ⟨k, T, (boot_eq_error true ws _).2 (loadError_targetAbove hlen hdec hkT)⟩
  · obtain ⟨hfalse, hv⟩ := (boot_true_eq_ok ws s).1 h
    obtain ⟨-, rfl⟩ := (boot_false_eq_ok ws s).1 hfalse
    obtain ⟨-, hin, hkind⟩ := run_keeps step_keeps_counterSafe hrun (loadedState_counterSafe hv)
    exact ⟨hin, hkind⟩

/-- Settles O53: a text that loads is booted from the words of its instructions, and such words decode to them. -/
theorem loadedTextIsTheProgram : Obligations.LoadedTextIsTheProgram := by
  intro v lines
  refine ⟨fun s h => ?_, fun k r h => ?_⟩
  · obtain ⟨is, his, hboot⟩ := (bootText_eq_ok v lines s).1 h
    obtain ⟨hnone, rfl⟩ := (boot_eq_ok v _ s).1 hboot
    obtain ⟨hlen, -⟩ := (loadError_eq_none v _).1 hnone
    refine ⟨is, his, (loadedState_progLen_toNat hlen).trans (List.length_map encode), fun i hi => ?_⟩
    rw [loadedState_instrAt_ofNat hlen (by rwa [List.length_map]), List.getElem_map, decode_encode]
  · obtain ⟨is, hboot⟩ := boot_of_bootText_eq_image h
    exact loadError_ne_illFormed exists_decode_of_mem_map_encode v k r ((boot_eq_error v _ _).1 hboot)

end

/-! ## Program text (30_encoding R72 to R75)

Numbers first: a run of decimal digits is read as the number whose digits it shows. Then registers and literals, the pieces
of a line, and the lines of a text. -/

namespace Sys2Proof.Machine

/-! ### Digits -/

theorem exists_digit_of_isDigit {c : Char} (h : c.isDigit = true) : ∃ d < 10, c = Nat.digitChar d := by
  obtain ⟨hlow, hhigh⟩ := Char.isDigit_iff_toNat.1 h
  have h0 : '0'.toNat = 48 := rfl
  have h9 : '9'.toNat = 57 := rfl
  have hlt : c.toNat - 48 < 10 := by omega
  refine ⟨c.toNat - 48, hlt, Char.toNat_inj.1 ?_⟩
  rw [Nat.toNat_digitChar_of_lt_ten hlt]
  omega

theorem isDigit_digitChar_of_lt {d : Nat} (h : d < 10) : (Nat.digitChar d).isDigit = true := by
  rw [Nat.isDigit_digitChar, decide_eq_true h]

theorem digitChar_eq_zero_iff {d : Nat} (h : d < 10) : Nat.digitChar d = '0' ↔ d = 0 := by
  interval_cases d <;> decide

/-- The number a list of digits stands for, the most significant first, after digits that stand for `acc`. -/
def digitsValue (acc : Nat) (ds : List Nat) : Nat := ds.foldl (fun n d => n * 10 + d) acc

theorem digitsValue_zero (ds : List Nat) : digitsValue 0 ds = Nat.ofDigits 10 ds.reverse := by
  rw [Nat.ofDigits_eq_foldr, List.foldr_reverse, digitsValue]
  congr 1
  funext n d
  rw [Nat.cast_id]
  omega

theorem readDigits_digitChars {ds : List Nat} (h : ∀ d ∈ ds, d < 10) (acc : Nat) :
    readDigits acc (ds.map Nat.digitChar) = some (digitsValue acc ds) := by
  induction ds generalizing acc with
  | nil => rfl
  | cons d ds ih =>
    have hd : d < 10 := h d (by simp)
    have hval : (Nat.digitChar d).toNat - '0'.toNat = d := Nat.toNat_digitChar_sub_48_of_lt_ten hd
    rw [List.map_cons, readDigits, if_pos (isDigit_digitChar_of_lt hd), hval, ih fun e he => h e (by simp [he])]
    rfl

/-- Only digits are read as a number. -/
theorem digits_of_readDigits {cs : List Char} {acc n : Nat} (h : readDigits acc cs = some n) :
    ∃ ds : List Nat, (∀ d ∈ ds, d < 10) ∧ cs = ds.map Nat.digitChar := by
  induction cs generalizing acc with
  | nil => exact ⟨[], by simp, rfl⟩
  | cons c cs ih =>
    rw [readDigits] at h
    split at h
    next hc =>
      obtain ⟨d, hd, rfl⟩ := exists_digit_of_isDigit hc
      obtain ⟨ds, hds, rfl⟩ := ih h
      exact ⟨d :: ds, List.forall_mem_cons.2 ⟨hd, hds⟩, rfl⟩
    next => cases h

/-! ### Numbers -/

theorem showNat_of_ne_zero {n : Nat} (h : n ≠ 0) : showNat n = (Nat.digits 10 n).reverse.map Nat.digitChar := by
  rw [showNat, if_neg h, List.map_reverse]

/-- A list of digits that does not begin with 0 is the decimal form of its number. -/
theorem showNat_digitsValue {d : Nat} {ds : List Nat} (h : ∀ e ∈ d :: ds, e < 10) (hd : d ≠ 0) :
    showNat (digitsValue 0 (d :: ds)) = (d :: ds).map Nat.digitChar := by
  have hdigits : Nat.digits 10 (digitsValue 0 (d :: ds)) = (d :: ds).reverse := by
    rw [digitsValue_zero]
    exact Nat.digits_ofDigits 10 (by decide) _ (fun e he => h e (List.mem_reverse.1 he)) (fun _ => by simpa using hd)
  have hne : digitsValue 0 (d :: ds) ≠ 0 := by
    intro hzero
    rw [hzero, Nat.digits_zero] at hdigits
    simp at hdigits
  rw [showNat_of_ne_zero hne, hdigits, List.reverse_reverse]

/-- Every number but 0 is the value of such a list. -/
theorem exists_digits {n : Nat} (h : n ≠ 0) :
    ∃ d ds, (∀ e ∈ d :: ds, e < 10) ∧ d ≠ 0 ∧ n = digitsValue 0 (d :: ds) := by
  have hvalue : n = digitsValue 0 (Nat.digits 10 n).reverse := by
    rw [digitsValue_zero, List.reverse_reverse, Nat.ofDigits_digits]
  have hlt : ∀ e ∈ (Nat.digits 10 n).reverse, e < 10 := fun e he =>
    Nat.digits_lt_base (by decide) (List.mem_reverse.1 he)
  have hlast := Nat.getLast_digit_ne_zero 10 h
  have hne : (Nat.digits 10 n).reverse ≠ [] := List.reverse_ne_nil_iff.2 (Nat.digits_ne_nil_iff_ne_zero.2 h)
  rw [← List.head_reverse hne] at hlast
  cases hds : (Nat.digits 10 n).reverse with
  | nil => exact absurd hds hne
  | cons d ds =>
    rw [hds] at hvalue hlt
    simp only [hds, List.head_cons] at hlast
    exact ⟨d, ds, hlt, hlast, hvalue⟩

theorem readNat_cons_of_ne_zero {c : Char} (h : c ≠ '0') (cs : List Char) : readNat (c :: cs) = readDigits 0 (c :: cs) := by
  unfold readNat
  split <;> simp_all

/-- A decimal literal is read as a number exactly when it is that number's own form. -/
theorem readNat_eq_some {cs : List Char} {n : Nat} : readNat cs = some n ↔ cs = showNat n := by
  constructor
  · intro h
    rcases cs with _ | ⟨c, cs⟩
    · cases h
    by_cases hc : c = '0'
    · subst hc
      cases cs with
      | nil =>
        cases h
        rfl
      | cons => cases h
    · rw [readNat_cons_of_ne_zero hc] at h
      obtain ⟨ds, hds, hcs⟩ := digits_of_readDigits h
      rw [hcs, readDigits_digitChars hds] at h
      cases h
      rcases ds with _ | ⟨d, ds⟩
      · cases hcs
      have hd : d ≠ 0 := fun hzero => hc (by rw [List.map_cons, hzero] at hcs; exact (List.cons.inj hcs).1)
      rw [hcs, showNat_digitsValue hds hd]
  · rintro rfl
    by_cases hn : n = 0
    · subst hn
      rfl
    · obtain ⟨d, ds, hlt, hd, rfl⟩ := exists_digits hn
      have hc : Nat.digitChar d ≠ '0' := mt (digitChar_eq_zero_iff (hlt d (by simp))).1 hd
      rw [showNat_digitsValue hlt hd, List.map_cons, readNat_cons_of_ne_zero hc, ← List.map_cons,
        readDigits_digitChars hlt]

theorem isDigit_of_mem_showNat {n : Nat} {c : Char} (h : c ∈ showNat n) : c.isDigit = true := by
  by_cases hn : n = 0
  · subst hn
    obtain rfl : c = '0' := List.mem_singleton.1 h
    rfl
  · rw [showNat_of_ne_zero hn, List.mem_map] at h
    obtain ⟨d, hd, rfl⟩ := h
    exact isDigit_digitChar_of_lt (Nat.digits_lt_base (by decide) (List.mem_reverse.1 hd))

/-! ### Registers and literals -/

theorem readReg_of_head_ne {c : Char} (h : c ≠ 'x') (cs : List Char) : readReg (c :: cs) = none := by
  unfold readReg
  split <;> simp_all

/-- The token of a register, and no other text, names it (R73). -/
theorem readReg_eq_some {p : List Char} {r : Reg} : readReg p = some r ↔ p = showReg r := by
  constructor
  · intro h
    rcases p with _ | ⟨c, cs⟩
    · cases h
    by_cases hc : c = 'x'
    · subst hc
      simp only [readReg] at h
      split at h
      next n hn =>
        split at h
        next =>
          cases h
          exact congrArg _ (readNat_eq_some.1 hn)
        next => cases h
      next => cases h
    · rw [readReg_of_head_ne hc] at h
      cases h
  · rintro rfl
    simp only [showReg, readReg, readNat_eq_some.2 rfl]
    exact dif_pos r.isLt

theorem readLiteral_showLiteral (k : BitVec 64) : readLiteral (showLiteral k) = some k := by
  simp only [showLiteral, readLiteral, readNat_eq_some.2 rfl, if_pos k.isLt, BitVec.ofNat_toNat, BitVec.setWidth_eq]

@[simp] theorem regPart_showReg (r : Reg) : regPart (showReg r) = .ok r := by
  rw [regPart, readReg_eq_some.2 rfl]

@[simp] theorem literalPart_showLiteral (k : BitVec 64) : literalPart (showLiteral k) = .ok k := by
  rw [literalPart, readLiteral_showLiteral]

/-! ### The pieces of a line -/

theorem space_not_mem_showNat (n : Nat) : ' ' ∉ showNat n := fun h => by
  cases isDigit_of_mem_showNat h

theorem space_not_mem_showReg (r : Reg) : ' ' ∉ showReg r := by
  simp [showReg, space_not_mem_showNat]

theorem space_not_mem_showLiteral (k : BitVec 64) : ' ' ∉ showLiteral k := by
  simp [showLiteral, space_not_mem_showNat]

theorem splitSpaces_ne_nil (cs : List Char) : splitSpaces cs ≠ [] := by
  cases cs with
  | nil => simp [splitSpaces]
  | cons c cs =>
    unfold splitSpaces
    split
    · simp
    · split <;> simp

theorem splitSpaces_space (cs : List Char) : splitSpaces (' ' :: cs) = [] :: splitSpaces cs := by
  cases h : splitSpaces cs with
  | nil => exact absurd h (splitSpaces_ne_nil cs)
  | cons w ws => simp [splitSpaces, h]

theorem splitSpaces_cons {c : Char} (hc : c ≠ ' ') {cs w : List Char} {ws : List (List Char)}
    (h : splitSpaces cs = w :: ws) : splitSpaces (c :: cs) = (c :: w) :: ws := by
  simp [splitSpaces, h, hc]

theorem splitSpaces_of_no_space {p : List Char} (h : ' ' ∉ p) : splitSpaces p = [p] := by
  induction p with
  | nil => rfl
  | cons c p ih =>
    obtain ⟨hc, hp⟩ := List.ne_and_not_mem_of_not_mem_cons h
    exact splitSpaces_cons hc.symm (ih hp)

theorem splitSpaces_append_space {p : List Char} (h : ' ' ∉ p) (q : List Char) :
    splitSpaces (p ++ ' ' :: q) = p :: splitSpaces q := by
  induction p with
  | nil => exact splitSpaces_space q
  | cons c p ih =>
    obtain ⟨hc, hp⟩ := List.ne_and_not_mem_of_not_mem_cons h
    exact splitSpaces_cons hc.symm (ih hp)

theorem dropComma_append_comma (p : List Char) : dropComma (p ++ [',']) = some p := by
  induction p with
  | nil => rfl
  | cons c p ih =>
    have hrest : p ++ [','] ≠ [] := by simp
    rw [List.cons_append, dropComma, ih]
    · rfl
    · exact hrest

@[simp] theorem commaPart_append_comma (p : List Char) : commaPart (p ++ [',']) = .ok p := by
  rw [commaPart, dropComma_append_comma]

/-- An operand with its comma, a space, and the rest of the line. -/
theorem splitSpaces_showReg_comma (r : Reg) (q : List Char) :
    splitSpaces (showReg r ++ [',', ' '] ++ q) = (showReg r ++ [',']) :: splitSpaces q := by
  have hspace : ' ' ∉ showReg r ++ [','] := by simp [space_not_mem_showReg]
  have hline : showReg r ++ [',', ' '] ++ q = (showReg r ++ [',']) ++ ' ' :: q := by simp
  rw [hline, splitSpaces_append_space hspace]

theorem splitSpaces_showRegs2 (a b : Reg) : splitSpaces (showRegs2 a b) = [showReg a ++ [','], showReg b] := by
  rw [showRegs2, splitSpaces_showReg_comma, splitSpaces_of_no_space (space_not_mem_showReg b)]

theorem splitSpaces_showRegs3 (a b c : Reg) :
    splitSpaces (showRegs3 a b c) = [showReg a ++ [','], showReg b ++ [','], showReg c] := by
  rw [showRegs3, splitSpaces_showReg_comma, splitSpaces_showRegs2]

/-! ### Operand lists -/

/-- A part that is read goes on with its value. -/
theorem ok_bind {ε α β : Type} (a : α) (f : α → Except ε β) : (Except.ok a >>= f) = f a := rfl

/-- What begins with `x` is read as the second operand of `mov` in its register form. -/
theorem readMov_register (rd rn : Reg) : readMov [showReg rd ++ [','], showReg rn] = .ok (.movr rd rn) := by
  have hhead : (showReg rn).head? ≠ some '#' := by simp [showReg]
  simp only [readMov, commaPart_append_comma, regPart_showReg, if_neg hhead, ok_bind]
  rfl

/-- And what begins with `#` in its immediate form. -/
theorem readMov_immediate (rd : Reg) (imm : Word) :
    readMov [showReg rd ++ [','], showLiteral imm] = .ok (.movi rd imm) := by
  have hhead : (showLiteral imm).head? = some '#' := rfl
  simp only [readMov, commaPart_append_comma, regPart_showReg, if_pos hhead, literalPart_showLiteral, ok_bind]
  rfl

theorem readCmp_registers (rn rm : Reg) : readCmp [showReg rn ++ [','], showReg rm] = .ok (.cmp rn rm) := by
  simp only [readCmp, commaPart_append_comma, regPart_showReg, ok_bind]
  rfl

theorem readArith_registers (mk : Reg → Reg → Reg → Instr) (rd rn rm : Reg) :
    readArith mk [showReg rd ++ [','], showReg rn ++ [','], showReg rm] = .ok (mk rd rn rm) := by
  simp only [readArith, commaPart_append_comma, regPart_showReg, ok_bind]
  rfl

theorem readBranch_literal (mk : Index → Instr) (t : Index) : readBranch mk [showLiteral t] = .ok (mk t) := by
  simp only [readBranch, literalPart_showLiteral]
  rfl

/-! ### Lines -/

/-- The mnemonic of an instruction's line. -/
def mnemonic : Instr → List Char
  | .movi _ _ | .movr _ _ => ['m', 'o', 'v']
  | .cmp _ _ => ['c', 'm', 'p']
  | .add _ _ _ => ['a', 'd', 'd']
  | .sub _ _ _ => ['s', 'u', 'b']
  | .mul _ _ _ => ['m', 'u', 'l']
  | .div _ _ _ => ['d', 'i', 'v']
  | .beq _ => ['b', '.', 'e', 'q']
  | .blt _ => ['b', '.', 'l', 't']

/-- The part of an instruction's line after the mnemonic and its space. -/
def showOperands : Instr → List Char
  | .movi rd imm => showReg rd ++ [',', ' '] ++ showLiteral imm
  | .movr a b | .cmp a b => showRegs2 a b
  | .add rd rn rm | .sub rd rn rm | .mul rd rn rm | .div rd rn rm => showRegs3 rd rn rm
  | .beq t | .blt t => showLiteral t

theorem showInstr_eq (i : Instr) : showInstr i = mnemonic i ++ ' ' :: showOperands i := by cases i <;> rfl

theorem space_not_mem_mnemonic (i : Instr) : ' ' ∉ mnemonic i := by cases i <;> simp [mnemonic]

theorem splitSpaces_showInstr (i : Instr) :
    splitSpaces (showInstr i) = mnemonic i :: splitSpaces (showOperands i) := by
  rw [showInstr_eq, splitSpaces_append_space (space_not_mem_mnemonic i)]

theorem parseLine_showInstr (i : Instr) : parseLine (showInstr i) = .ok i := by
  rw [parseLine, splitSpaces_showInstr]
  cases i with
  | movi rd imm =>
    rw [showOperands, splitSpaces_showReg_comma, splitSpaces_of_no_space (space_not_mem_showLiteral imm)]
    exact readMov_immediate rd imm
  | movr rd rn =>
    rw [showOperands, splitSpaces_showRegs2]
    exact readMov_register rd rn
  | cmp rn rm =>
    rw [showOperands, splitSpaces_showRegs2]
    exact readCmp_registers rn rm
  | add rd rn rm | sub rd rn rm | mul rd rn rm | div rd rn rm =>
    rw [showOperands, splitSpaces_showRegs3]
    exact readArith_registers _ rd rn rm
  | beq t | blt t =>
    rw [showOperands, splitSpaces_of_no_space (space_not_mem_showLiteral t)]
    exact readBranch_literal _ t

/-! ### Texts -/

theorem assembleFrom_blank (k : Nat) (lines : List (List Char)) :
    assembleFrom k ([] :: lines) = assembleFrom (k + 1) lines := rfl

/-- A text whose first line is not blank assembles to that line's instruction and those of the rest, or not at all. -/
theorem assembleFrom_cons_eq_ok {line : List Char} (h : line ≠ []) (k : Nat) (lines : List (List Char))
    (is : List Instr) : assembleFrom k (line :: lines) = .ok is ↔
      ∃ i js, parseLine line = .ok i ∧ assembleFrom (k + 1) lines = .ok js ∧ is = i :: js := by
  obtain ⟨c, cs, rfl⟩ := List.exists_cons_of_ne_nil h
  cases hp : parseLine (c :: cs) with
  | error e => simp [assembleFrom, hp]
  | ok i => cases hrest : assembleFrom (k + 1) lines <;> simp [assembleFrom, hp, hrest, eq_comm]

/-- A text assembles line by line, and the number of its first line is in its errors only. -/
theorem assembleFrom_eq_ok (k : Nat) (lines : List (List Char)) (is : List Instr) :
    assembleFrom k lines = .ok is ↔ (lines.filter fun l => l ≠ []).map parseLine = is.map .ok := by
  induction lines generalizing k is with
  | nil => simp [assembleFrom, eq_comm]
  | cons line lines ih =>
    by_cases hblank : line = []
    · subst hblank
      rw [assembleFrom_blank, ih, List.filter_cons_of_neg (by simp)]
    · rw [assembleFrom_cons_eq_ok hblank, List.filter_cons_of_pos (by simpa using hblank), List.map_cons]
      simp only [ih]
      cases is with
      | nil => simp
      | cons j js => simp [eq_comm]

end Sys2Proof.Machine

section
open Sys2Proof Sys2Proof.Machine

/-- Settles O50: a number is read from its own decimal form alone. -/
theorem registerTokensAreExactlyX0ToX30 : Obligations.RegisterTokensAreExactlyX0ToX30 := fun _ _ => readReg_eq_some

/-- Settles O48: the line falls into the mnemonic and the operands, and each operand reads back. -/
theorem listingReadsBack : Obligations.ListingReadsBack := parseLine_showInstr

/-- Settles O49: by induction on the lines, whatever number the first one has. -/
theorem nonBlankLinesAreTheProgram : Obligations.NonBlankLinesAreTheProgram := assembleFrom_eq_ok 0

end
